-- ==== Sys2Proof/Word.lean ====
section
/-! DEFINITION. The word types of the machine: the widths of rule R8 (CELL_BITS 8, ILEN 16, PC_BITS 9) and the
4-bit fields of rule R61. Every value is unsigned (00_scope.md section 4). -/

namespace Sys2Proof

/-- A memory cell, and the data of a register cell (R8 CELL_BITS, R11). -/
abbrev Byte := BitVec 8

/-- An instruction word (R8 ILEN, R60). -/
abbrev IWord := BitVec 16

/-- One hex digit: the fields op, R, X and Y of an instruction word (R61). -/
abbrev Nibble := BitVec 4

/-- A register number, the 4-bit field taken as an unsigned index (R64). -/
abbrev RegIdx := BitVec 4

/-- A value of the program counter or of the program-length bound (R18, R23). -/
abbrev Addr9 := BitVec 9

end Sys2Proof
end

