-- ==== Sys2Proof/Machine/Flags.lean ====
section
/-! DEFINITION. The alu of rule R32. The machine has no flags, condition codes or predicates (R25), so this file holds
no flag computation: only the functions ADD16 (R120), the domain of FADD (R122) and EQ (R140). -/

namespace Sys2Proof.Machine

/-- ADD16: the exact sum of the two bytes, reduced to its low four bits when it is above 0x0F (R120). -/
def aluAdd (a b : Byte) : Byte :=
  let raw := a.toNat + b.toNat
  let res := if raw > 0x0F then raw &&& 0x0F else raw
  BitVec.ofNat 8 res

/-- The high hex digit of a byte, `b[7:4]`. -/
def highDigit (b : Byte) : Nat := b.toNat / 16

/-- The low hex digit of a byte, `b[3:0]`. -/
def lowDigit (b : Byte) : Nat := b.toNat % 16

/-- Both hex digits of the byte are decimal digits (R122). -/
def isDecimal (b : Byte) : Bool :=
  decide (highDigit b ≤ 9) && decide (lowDigit b ≤ 9)

/-- The domain in which the source defines ADD_FLOAT (R122, D5). -/
def floatDomain (a b : Byte) : Bool :=
  isDecimal a && isDecimal b

/-- The decimal reading of a cell's two digits (R122). Informative: no state holds it. -/
def decimalReading (b : Byte) : Nat := 10 * highDigit b + lowDigit b

/-- EQ: equality of two 8-bit values (R140, D19). -/
def aluEq (a b : Byte) : Bool := decide (a = b)

end Sys2Proof.Machine
end

