-- ==== Sys2Proof/Syntax.lean ====
section
/-! DEFINITION. The instructions: one constructor per row of spec/opcode_table.json (R68). A field that the
instruction's form ignores (R63, R69) is no argument of its constructor. -/

namespace Sys2Proof

/-- The sixteen opcode values of rule R68, with the operands their form uses (R63). -/
inductive Instr where
  /-- `0---`, an unknown opcode (R142). -/
  | unknown0
  /-- `1RXY` LOAD: register R, memory address XY (R100). -/
  | load (r : RegIdx) (xy : Byte)
  /-- `2RXY` LOAD_IMM: register R, literal byte XY (R101). -/
  | loadImm (r : RegIdx) (xy : Byte)
  /-- `3RXY` STORE: register R, memory address XY (R102). -/
  | store (r : RegIdx) (xy : Byte)
  /-- `4-XY` MOVE: source register X, destination register Y (R103). -/
  | move (x y : RegIdx)
  /-- `5RXY` ADD: destination R, sources X and Y (R120). -/
  | add (r x y : RegIdx)
  /-- `6RXY` ADD_FLOAT: destination R, sources X and Y (R122). -/
  | addFloat (r x y : RegIdx)
  /-- `7---`, an unknown opcode (R142). -/
  | unknown7
  /-- `8---`, an unknown opcode (R142). -/
  | unknown8
  /-- `9---`, an unknown opcode (R142). -/
  | unknown9
  /-- `A---`, an unknown opcode (R142). -/
  | unknownA
  /-- `BRXY` JUMPEQ: compared register R, target byte XY (R140). -/
  | jumpeq (r : RegIdx) (xy : Byte)
  /-- `C---` HALT (R141). -/
  | halt
  /-- `D---`, an unknown opcode (R142). -/
  | unknownD
  /-- `E---`, an unknown opcode (R142). -/
  | unknownE
  /-- `F---`, an unknown opcode (R142). -/
  | unknownF
deriving DecidableEq, Repr

/-- The opcode nibble of each row of rule R68. -/
def Instr.opcode : Instr → Nibble
  | .unknown0 => 0x0
  | .load _ _ => 0x1
  | .loadImm _ _ => 0x2
  | .store _ _ => 0x3
  | .move _ _ => 0x4
  | .add _ _ _ => 0x5
  | .addFloat _ _ _ => 0x6
  | .unknown7 => 0x7
  | .unknown8 => 0x8
  | .unknown9 => 0x9
  | .unknownA => 0xA
  | .jumpeq _ _ => 0xB
  | .halt => 0xC
  | .unknownD => 0xD
  | .unknownE => 0xE
  | .unknownF => 0xF

/-- The eight opcodes without a meaning (R70). -/
def Instr.isUnknown : Instr → Bool
  | .unknown0 | .unknown7 | .unknown8 | .unknown9 | .unknownA | .unknownD | .unknownE | .unknownF => true
  | .load _ _ | .loadImm _ _ | .store _ _ | .move _ _ | .add _ _ _ | .addFloat _ _ _ | .jumpeq _ _ | .halt => false

end Sys2Proof
end

