-- ==== Sys2Proof/Config.lean ====
section
/-! DEFINITION. What this hardware fixes (the parameters of rule R8) and the free values the spec leaves open
(93_implementation_defined.md U1 and U5). -/

namespace Sys2Proof

/-- MEM_SIZE, the number of memory cells (R8, R13). -/
abbrev Config.memSize : Nat := 256

/-- NUM_REGS, the number of registers (R8, R14). -/
abbrev Config.numRegs : Nat := 16

/-- RESET_PC (R8, R191). -/
abbrev Config.resetPc : Addr9 := 0

/-- LOAD_BASE, the address of the first loaded byte (R8, R50). -/
abbrev Config.loadBase : Nat := 0

/-- The largest image a load takes, in words (R193, R196). DESIGN CHOICE of the spec (D3). -/
abbrev Config.maxImageWords : Nat := 128

/-- What a memory cell that nothing has written reads as: memory is "zero-initialized" (R13). -/
abbrev Config.unwrittenByte : Byte := 0

/-- FREE VALUE: the data bits of a register cell whose tag says `Opaque` (R12, U5: any value). The argument is
`State.draws`, so that two draws are not known to be equal or unequal. Safe; log entry 1. -/
opaque Config.freeByte : Nat → Byte

/-- FREE VALUE: the instruction register after the host command `reset` (R37, U1: any value). The argument is
`State.draws`. Safe; log entry 2. -/
opaque Config.freeWord : Nat → IWord

end Sys2Proof
end

