-- ==== Sys2Proof/WellFormed.lean ====
section
/-! DEFINITION. The checks on data that the types do not already make. An instruction needs none: every operand of
`Instr` is a bit vector of its field's width, and every value of every field is admitted (R64 to R67, R69), so each
`Instr` is well formed. What can be ill formed is a program on its way in: an image of too many words (R196), a
token that is not four characters (R194), a token that is not hexadecimal (R73, U7). -/

namespace Sys2Proof

/-- An image the load port takes: at most 128 words (R193, R196). -/
def imageWellFormed (words : List IWord) : Bool :=
  decide (words.length ≤ Config.maxImageWords)

/-- The text adapter's check: "Any token not exactly 4 characters is a load error" (R73, R194). -/
def tokenWellFormed (token : List Char) : Bool :=
  decide (token.length = 4)

/-- A hexadecimal digit of either letter case (R73: the case is not fixed by the source; log entry 12). -/
def isHexChar (c : Char) : Bool :=
  decide (0x30 ≤ c.toNat ∧ c.toNat ≤ 0x39)
    || decide (0x41 ≤ c.toNat ∧ c.toNat ≤ 0x46) || decide (0x61 ≤ c.toNat ∧ c.toNat ≤ 0x66)

/-- Every character of the token is a hexadecimal digit (R73). -/
def tokenHexadecimal (token : List Char) : Bool :=
  token.all isHexChar

end Sys2Proof
end

