-- ==== Sys2Proof/Decode.lean ====
section
/-! DEFINITION. The decoder (R30, R61, R68), the encoder written from the same table, the layout of a word in memory
(R46, R62) and the value of a program token (R73). Decoding looks at the opcode alone and is total on all 65536
words; an unknown opcode decodes to a constructor of its own, never to a neighbour. -/

namespace Sys2Proof

/-- `op = ir[15:12]` (R61). -/
def opField (w : IWord) : Nibble := w.extractLsb' 12 4

/-- `R = ir[11:8]` (R61). -/
def rField (w : IWord) : RegIdx := w.extractLsb' 8 4

/-- `X = ir[7:4]` (R61). -/
def xField (w : IWord) : RegIdx := w.extractLsb' 4 4

/-- `Y = ir[3:0]` (R61). -/
def yField (w : IWord) : RegIdx := w.extractLsb' 0 4

/-- `XY = ir[7:0]` (R61). -/
def xyField (w : IWord) : Byte := w.extractLsb' 0 8

/-- The opcode map of rule R68, in the order of the sixteen opcode values: what each makes of the whole word. -/
def opcodeMap : Vector (IWord → Instr) 16 := #v[
  fun _ => .unknown0,
  fun w => .load (rField w) (xyField w),
  fun w => .loadImm (rField w) (xyField w),
  fun w => .store (rField w) (xyField w),
  fun w => .move (xField w) (yField w),
  fun w => .add (rField w) (xField w) (yField w),
  fun w => .addFloat (rField w) (xField w) (yField w),
  fun _ => .unknown7,
  fun _ => .unknown8,
  fun _ => .unknown9,
  fun _ => .unknownA,
  fun w => .jumpeq (rField w) (xyField w),
  fun _ => .halt,
  fun _ => .unknownD,
  fun _ => .unknownE,
  fun _ => .unknownF]

/-- Decoding looks at `op` alone (R68) and is total (R30). -/
def decode (w : IWord) : Instr :=
  (opcodeMap[(opField w).toNat]'(opField w).isLt) w

/-- Form RM, `oRXY` with XY one byte (R63). -/
def encodeRM (op : Nibble) (r : RegIdx) (xy : Byte) : IWord := op ++ r ++ xy

/-- Form RRR, `oRXY` with three registers (R63). -/
def encodeRRR (op : Nibble) (r x y : RegIdx) : IWord := op ++ r ++ x ++ y

/-- Form MOV, canonical `o0XY` (R63, R69). -/
def encodeMOV (op : Nibble) (x y : RegIdx) : IWord := op ++ (0 : Nibble) ++ x ++ y

/-- Form NONE, canonical `o000` (R63, R69). -/
def encodeNONE (op : Nibble) : IWord := op ++ (0 : BitVec 12)

/-- The canonical word of an instruction: 0 in every field its form ignores (R69). -/
def encode : Instr → IWord
  | .unknown0 => encodeNONE 0x0
  | .load r xy => encodeRM 0x1 r xy
  | .loadImm r xy => encodeRM 0x2 r xy
  | .store r xy => encodeRM 0x3 r xy
  | .move x y => encodeMOV 0x4 x y
  | .add r x y => encodeRRR 0x5 r x y
  | .addFloat r x y => encodeRRR 0x6 r x y
  | .unknown7 => encodeNONE 0x7
  | .unknown8 => encodeNONE 0x8
  | .unknown9 => encodeNONE 0x9
  | .unknownA => encodeNONE 0xA
  | .jumpeq r xy => encodeRM 0xB r xy
  | .halt => encodeNONE 0xC
  | .unknownD => encodeNONE 0xD
  | .unknownE => encodeNONE 0xE
  | .unknownF => encodeNONE 0xF

/-- The byte at the lower address: `ir[15:8]` (R46, R62). -/
def highByte (w : IWord) : Byte := w.extractLsb' 8 8

/-- The byte at the next address: `ir[7:0]` (R46, R62). -/
def lowByte (w : IWord) : Byte := w.extractLsb' 0 8

/-- `MEM[a] ∥ MEM[a+1]`, the lower address high (R46). -/
def wordOfBytes (hi lo : Byte) : IWord := hi ++ lo

/-- Why a list of bytes holds no instruction. -/
inductive DecodeError where
  /-- Fewer than the two bytes of an instruction are left (R60). Safe: no machine step decodes so few. -/
  | truncated
deriving DecidableEq, Repr

/-- Decode the first two bytes of a list, with the bytes that follow (R60, R62). -/
def decodeBytes : List Byte → Except DecodeError (Instr × List Byte)
  | hi :: lo :: rest => .ok (decode (wordOfBytes hi lo), rest)
  | [_] => .error .truncated
  | [] => .error .truncated

/-- The two bytes of an instruction's canonical word as memory holds them (R62). -/
def encodeBytes (i : Instr) : List Byte := [highByte (encode i), lowByte (encode i)]

/-- The word of a table row given as a number, its bits above `nbits` zero. -/
def tableWord (nbits w : Nat) : IWord := BitVec.ofNat 16 (w % 2 ^ nbits)

/-- What the decoder reads from a table word laid out as memory holds it (R62). -/
def decodeTableWord (nbits w : Nat) : Option Instr :=
  match decodeBytes [highByte (tableWord nbits w), lowByte (tableWord nbits w)] with
  | .ok (i, _) => some i
  | .error .truncated => none

/-- The value of a hexadecimal digit; `none` for any other character (R73). -/
def hexDigitValue (c : Char) : Option Nibble :=
  if 0x30 ≤ c.toNat ∧ c.toNat ≤ 0x39 then some (BitVec.ofNat 4 (c.toNat - 0x30))
  else if 0x41 ≤ c.toNat ∧ c.toNat ≤ 0x46 then some (BitVec.ofNat 4 (c.toNat - 0x41 + 10))
  else if 0x61 ≤ c.toNat ∧ c.toNat ≤ 0x66 then some (BitVec.ofNat 4 (c.toNat - 0x61 + 10))
  else none

/-- The word of a token of four hexadecimal digits, op first (R73); `none` for any other token. -/
def tokenWord (token : List Char) : Option IWord :=
  match token.map hexDigitValue with
  | [some op, some r, some x, some y] => some (op ++ r ++ x ++ y)
  | _ => none

end Sys2Proof
end

