-- ==== Sys2Proof/Machine/State.lean ====
section
/-! DEFINITION. The state of the CORE: the six pieces of rule R10, the report stream of rule R24, and one counter of
the model's own; the reasons a step can stop; and the state right after reset (R37). -/

namespace Sys2Proof.Machine

/-- The CPU's states (R26). Its bit encoding is open (U9, D23), so it is an enumeration. -/
inductive Phase where
  | fetching
  | executing
  | halted
  | faulted
deriving DecidableEq, Repr

/-- A register cell (R12): 8 data bits and a tag bit. -/
inductive RegCell where
  /-- Tag clear: the cell is a byte. -/
  | byte (b : Byte)
  /-- Tag set, `Opaque`: what ADD_FLOAT leaves. The data bits are unspecified and no rule reads them (U5). -/
  | opaqueText (bits : Byte)
deriving DecidableEq, Repr

/-- The space of a bounds report (R24). -/
inductive Space where
  | mem
  | reg
deriving DecidableEq, Repr

/-- The kind of access of a bounds report (R24). -/
inductive AccessKind where
  | read
  | write
deriving DecidableEq, Repr

/-- The alphabet of the report stream (R24). -/
inductive ReportEvent where
  /-- An access outside the memory or the register bank (R162). -/
  | boundsFault (space : Space) (kind : AccessKind) (index : Nat)
  /-- An unknown opcode was executed; the word is recorded (R163). -/
  | unknownOpcode (word : IWord)
  /-- The parse kind of the decode fault: no rule emits it (R164). -/
  | decodeParseFault
  /-- "Program Halted" (R141). -/
  | haltMessage
  /-- Token `k` of a program image is malformed (R165, R194). -/
  | loadFault (k : Nat)
deriving DecidableEq, Repr

/-- Memory: the cells that differ from 0x00, at strictly rising addresses (R13; `Memory.wf` in Ops.lean). -/
abbrev Memory := List Host.Cell

/-- The state of the machine. -/
structure State where
  /-- `MEM[0..255]` (R10, R13). -/
  mem : Memory
  /-- `x[0..15]` (R10, R14). -/
  regs : Vector RegCell Config.numRegs
  /-- The program counter (R10, R18). -/
  pc : Addr9
  /-- The instruction register (R10, R22). -/
  ir : IWord
  /-- The program-length bound (R10, R23). -/
  psize : Addr9
  /-- The CPU state (R10, R26). -/
  phase : Phase
  /-- The report stream, oldest event first (R24): an output that no rule reads (log entry 4). -/
  reports : List ReportEvent
  /-- The MODEL's own counter of free values drawn so far; no piece of the hardware (log entry 3). -/
  draws : Nat
deriving DecidableEq, Repr

/-- Why a step stops with a fault: for no reason. Every fault of this hardware is a report after which the state
goes on being defined (R162, R163, R166), so its step is a next state and this type has no constructor. -/
inductive Fault where
deriving DecidableEq, Repr

/-- Why an instruction or a host command is given no meaning (R180). -/
inductive Refusal where
  /-- An arm of `exec` that has no meaning yet. Safe. -/
  | notModelled (mnemonic : String)
  /-- STORE, ADD, ADD_FLOAT and JUMPEQ raise it when they read register `reg` as a byte and it is `Opaque`
  (U4, D6). Safe: the run has no meaning. -/
  | opaqueOperand (reg : RegIdx)
  /-- ADD_FLOAT raises it when a source byte has a nibble above 9 (U3, D5). Safe: the run has no meaning. -/
  | nonDecimalOperand
  /-- The host command `load` raises it for more than 128 words (U6, D3). Safe. -/
  | oversizeLoad
  /-- The host's text load raises it for a token of four characters that is not hexadecimal (U7, D17). Safe. -/
  | nonHexToken
deriving DecidableEq, Repr

/-- The state after reset and at power-on (R37). `ir` has no reset value in the spec: 0 is the model's own
(DESIGN CHOICE, unsafe; log entry 2). -/
def State.reset : State where
  mem := []
  regs := Vector.replicate Config.numRegs (.byte 0)
  pc := Config.resetPc
  ir := 0
  psize := 0
  phase := .fetching
  reports := []
  draws := 0

end Sys2Proof.Machine
end

