-- ==== Sys2Proof/Machine/Ops.lean ====
section
/-! DEFINITION. The named operations over memory, registers, program counter and reports: the access contracts
(R16, R41 to R46), fetch (R81), the start and the end of a step (R80), the one fatal fault (R163), the stop of HALT
(R141), and the placing of words in memory (R62, R193). -/

namespace Sys2Proof.Machine

/-! ## Memory cells -/

/-- What the cell at an address holds; an unlisted cell is 0x00 (R13). -/
def Memory.read : Memory → Nat → Byte
  | [], _ => Config.unwrittenByte
  | (k, b) :: m, a => if a = k then b else Memory.read m a

/-- The cells without the one at an address. -/
def Memory.erase (m : Memory) (a : Nat) : Memory :=
  m.filter fun c => decide (c.1 ≠ a)

/-- A cell put before the first cell of a higher address. -/
def Memory.insert (a : Nat) (v : Byte) : Memory → Memory
  | [] => [(a, v)]
  | (k, b) :: m => if a < k then (a, v) :: (k, b) :: m else (k, b) :: Memory.insert a v m

/-- One cell written (R43). A cell that comes to hold 0x00 leaves the list. -/
def Memory.write (m : Memory) (a : Nat) (v : Byte) : Memory :=
  if v = Config.unwrittenByte then Memory.erase m a else Memory.insert a v (Memory.erase m a)

/-- The canonical form: strictly rising addresses below MEM_SIZE, no cell that reads as an unlisted one. -/
abbrev Memory.wf (m : Memory) : Prop :=
  m.Pairwise (fun c d => c.1 < d.1) ∧ ∀ c ∈ m, c.1 < Config.memSize ∧ c.2 ≠ Config.unwrittenByte

/-! ## Reports -/

/-- `report(e)`: append to the report stream (R24). -/
def State.report (s : State) (e : ReportEvent) : State :=
  { s with reports := s.reports ++ [e] }

/-- The cause code the spec assigns for a status output (R161, D11). -/
def ReportEvent.causeCode : ReportEvent → Nat
  | .haltMessage => 0
  | .boundsFault _ _ _ => 1
  | .decodeParseFault => 2
  | .unknownOpcode _ => 3
  | .loadFault _ => 4

/-- The wording of a report where the source fixes it: "Program Halted" only (R178, U11). -/
def ReportEvent.fixedText : ReportEvent → Option String
  | .haltMessage => some "Program Halted"
  | .boundsFault _ _ _ => none
  | .decodeParseFault => none
  | .unknownOpcode _ => none
  | .loadFault _ => none

/-! ## The memory contract -/

/-- `MEM[a]` as plain data: 0x00 for a cell nothing has written and for an address outside memory. -/
def State.byteAt (s : State) (a : Nat) : Byte :=
  if a < Config.memSize then s.mem.read a else 0

/-- `MemRead(a, 1)`: in range the cell (R41), out of range 0x00 and a bounds report (R42). -/
def State.memRead (s : State) (a : Nat) : Byte × State :=
  if a < Config.memSize then (s.mem.read a, s) else (0, s.report (.boundsFault .mem .read a))

/-- `MemRead(a, 2)`: big-endian, the byte at `a` first, then the byte at `a + 1` (R46). -/
def State.memRead2 (s : State) (a : Nat) : IWord × State :=
  let hi := s.memRead a
  let lo := hi.2.memRead (a + 1)
  (wordOfBytes hi.1 lo.1, lo.2)

/-- `MemWrite(a, 1, v)`: in range the cell is written (R43), out of range nothing but a bounds report (R44). -/
def State.memWrite (s : State) (a : Nat) (v : Byte) : State :=
  if a < Config.memSize then { s with mem := s.mem.write a v } else s.report (.boundsFault .mem .write a)

/-! ## The register bank -/

/-- `x[i]`, a read: every 4-bit index is a register (R14, R64). -/
def State.x (s : State) (i : RegIdx) : RegCell :=
  s.regs[i.toNat]'i.isLt

/-- `x[i] <- c`: the cell is written verbatim (R16). -/
def State.setX (s : State) (i : RegIdx) (c : RegCell) : State :=
  { s with regs := s.regs.set i.toNat c i.isLt }

/-- `RegRead(i)` for any index (R16). -/
def State.regRead (s : State) (i : Nat) : RegCell × State :=
  if h : i < Config.numRegs then (s.regs[i], s) else (.byte 0, s.report (.boundsFault .reg .read i))

/-- `RegWrite(i, c)` for any index (R16). -/
def State.regWrite (s : State) (i : Nat) (c : RegCell) : State :=
  if h : i < Config.numRegs then { s with regs := s.regs.set i c h } else s.report (.boundsFault .reg .write i)

/-- The cell ADD_FLOAT leaves: tag set, the data bits a free value (R12, U5; log entry 1). -/
def State.setOpaque (s : State) (i : RegIdx) : State :=
  { s.setX i (.opaqueText (Config.freeByte s.draws)) with draws := s.draws + 1 }

/-! ## The program counter -/

/-- `add2` (R34): exact in 9 bits at every reachable value (R21; log entry 6). -/
def State.pcAdd2 (s : State) : State :=
  { s with pc := s.pc + 2 }

/-- `load XY` (R34), given the target already widened. -/
def State.pcLoad (s : State) (t : Addr9) : State :=
  { s with pc := t }

/-! ## One step around execute -/

/-- The guard `pc < psize`, an unsigned compare that reads nothing else (R80, R88). -/
def State.guard (s : State) : Bool :=
  decide (s.pc < s.psize)

/-- `ir <- MemRead(pc, 2)` (R29, R81). -/
def State.fetch (s : State) : State :=
  let r := s.memRead2 s.pc.toNat
  { r.2 with ir := r.1 }

/-- The part of a step before execute (R80): phase Fetching, the fetch, phase Executing. -/
def State.beginStep (s : State) : State :=
  { State.fetch { s with phase := .fetching } with phase := .executing }

/-- The continue signal of execute (R82): true unless HALT or an unknown opcode has set the phase
(DEDUCED; log entry 5). -/
def State.continues (s : State) : Bool :=
  decide (s.phase = .executing)

/-- The part of a step after execute (R80, R83): incrementPC and phase Fetching, only after continue. -/
def State.endStep (s : State) : State :=
  if s.continues then { s.pcAdd2 with phase := .fetching } else s

/-- `raise UnknownOpcode(ir)`, the one fatal fault: the report, phase Faulted, and nothing else (R163). There is no
trap entry beyond it and no return from it (R169, R170). -/
def State.raiseUnknownOpcode (s : State) : State :=
  { s.report (.unknownOpcode s.ir) with phase := .faulted }

/-- HALT's stop: the message, then its own advance of `pc`, then phase Halted (R141). -/
def State.halt (s : State) : State :=
  { (s.report .haltMessage).pcAdd2 with phase := .halted }

/-! ## Words in memory -/

/-- One instruction word written at an address, high byte first (R62, R193). -/
def State.writeWord (s : State) (a : Nat) (w : IWord) : State :=
  (s.memWrite a (highByte w)).memWrite (a + 1) (lowByte w)

/-- The smallest legal bound above an address below 255: even, at most 256 (R23). -/
def boundAbove (a : Nat) : Addr9 :=
  BitVec.ofNat 9 (2 * (a / 2) + 2)

/-- The address at which a whole word can be fetched: `pc` where both its bytes exist, else 0. -/
def State.placeAddr (s : State) : Addr9 :=
  if s.pc.toNat + 1 < Config.memSize then s.pc else 0

/-- A state whose next step fetches the given word: it stands for a host `load` (R193) of an image that holds the
word at `pc`, with `psize` raised if the guard would stop the step (log entry 8). -/
def State.placeFetchWord (s : State) (w : IWord) : State :=
  let a := s.placeAddr
  { s.writeWord a.toNat w with pc := a, psize := if a < s.psize then s.psize else boundAbove a.toNat }

/-- Change the state of a next state; a fault or a refusal stays as it is. -/
def mapNext {α β : Type} (f : α → β) : Host.Outcome α Fault Refusal → Host.Outcome β Fault Refusal
  | .next a => .next (f a)
  | .fault r => .fault r
  | .refused r => .refused r

end Sys2Proof.Machine
end

