-- ==== Sys2Proof/Machine/Operands.lean ====
section
/-! DEFINITION. The operand forms: `byte(x[i])` (00_scope.md section 4, R12) and the three readings of XY (R65, R66,
R67). -/

namespace Sys2Proof.Machine

/-- What a meaning answers. -/
abbrev Result := Host.Outcome State Fault Refusal

/-- `byte(c)`: the byte of a cell whose tag is clear. -/
def RegCell.byte? : RegCell → Option Byte
  | .byte b => some b
  | .opaqueText _ => none

/-- Read register `i` as a byte and go on with it; an `Opaque` cell is refused (U4, D6, R180). -/
def State.withByte (s : State) (i : RegIdx) (k : Byte → Result) : Result :=
  match (s.x i).byte? with
  | some b => k b
  | none => .refused (.opaqueOperand i)

/-- XY as a memory address: zero-extended, absolute (R65). -/
def xyAddress (xy : Byte) : Nat := xy.toNat

/-- XY as an immediate: the literal byte (R66). -/
def xyImmediate (xy : Byte) : Byte := xy

/-- XY as a jump target: zero-extended to the width of `pc`, not scaled (R67). -/
def xyTarget (xy : Byte) : Addr9 := xy.setWidth 9

end Sys2Proof.Machine
end

