-- ==== Sys2Proof/Machine/Arithmetic.lean ====
section
/-! DEFINITION. ADD and ADD_FLOAT (42_arithmetic.md). Both return continue. Sources are read before the destination
is written (R87). -/

namespace Sys2Proof.Machine

/-- ADD (R120): the masked sum; an `Opaque` source is refused (U4). -/
def execAdd (r x y : RegIdx) (s : State) : Result :=
  s.withByte x fun a => s.withByte y fun b => .next (s.setX r (.byte (aluAdd a b)))

/-- ADD_FLOAT (R122): on decimal-digit sources the destination becomes `Opaque`; an `Opaque` source (U4) and a source
with a hex letter (U3) are refused. -/
def execAddFloat (r x y : RegIdx) (s : State) : Result :=
  s.withByte x fun a => s.withByte y fun b =>
    if floatDomain a b then .next (s.setOpaque r) else .refused .nonDecimalOperand

end Sys2Proof.Machine
end

