-- ==== Sys2Proof/Machine/Control.lean ====
section
/-! DEFINITION. JUMPEQ, HALT and the eight unknown opcodes (43_control.md). -/

namespace Sys2Proof.Machine

/-- JUMPEQ (R140): `pc <- zext_9(XY)` when x[R] equals x[0]; the end of the step then adds 2 (R83). An `Opaque`
operand is refused, also when R is 0 (U4, R144). -/
def execJumpeq (r : RegIdx) (xy : Byte) (s : State) : Result :=
  s.withByte r fun a => s.withByte 0 fun b =>
    .next (if aluEq a b then s.pcLoad (xyTarget xy) else s)

/-- HALT (R141). -/
def execHalt (s : State) : Result := .next s.halt

/-- Opcode 0x0 (R142). -/
def execUnknown0 (s : State) : Result := .next s.raiseUnknownOpcode

/-- Opcode 0x7 (R142). -/
def execUnknown7 (s : State) : Result := .next s.raiseUnknownOpcode

/-- Opcode 0x8 (R142). -/
def execUnknown8 (s : State) : Result := .next s.raiseUnknownOpcode

/-- Opcode 0x9 (R142). -/
def execUnknown9 (s : State) : Result := .next s.raiseUnknownOpcode

/-- Opcode 0xA (R142). -/
def execUnknownA (s : State) : Result := .next s.raiseUnknownOpcode

/-- Opcode 0xD (R142). -/
def execUnknownD (s : State) : Result := .next s.raiseUnknownOpcode

/-- Opcode 0xE (R142). -/
def execUnknownE (s : State) : Result := .next s.raiseUnknownOpcode

/-- Opcode 0xF (R142). -/
def execUnknownF (s : State) : Result := .next s.raiseUnknownOpcode

end Sys2Proof.Machine
end

