-- ==== Sys2Proof/Machine/DataTransfer.lean ====
section
/-! DEFINITION. LOAD, LOAD_IMM, STORE and MOVE (41_data_transfer.md). All four return continue: they leave `pc` and
`phase` to the end of the step (R83). -/

namespace Sys2Proof.Machine

/-- LOAD (R100): `x[R] <- Byte(MemRead(XY, 1))`. -/
def execLoad (r : RegIdx) (xy : Byte) (s : State) : Result :=
  let m := s.memRead (xyAddress xy)
  .next (m.2.setX r (.byte m.1))

/-- LOAD_IMM (R101): `x[R] <- Byte(XY)`. -/
def execLoadImm (r : RegIdx) (xy : Byte) (s : State) : Result :=
  .next (s.setX r (.byte (xyImmediate xy)))

/-- STORE (R102): `MemWrite(XY, 1, byte(x[R]))`; an `Opaque` source is refused (U4). -/
def execStore (r : RegIdx) (xy : Byte) (s : State) : Result :=
  s.withByte r fun b => .next (s.memWrite (xyAddress xy) b)

/-- MOVE (R103): `x[Y] <- x[X]`, the whole cell, tag included. -/
def execMove (x y : RegIdx) (s : State) : Result :=
  .next (s.setX y (s.x x))

end Sys2Proof.Machine
end

