-- ==== Sys2Proof/Machine/Dispatch.lean ====
section
/-! DEFINITION. `execute` (R82): one arm per row of the opcode table. -/

namespace Sys2Proof.Machine

def exec (i : Instr) (s : State) : Host.Outcome State Fault Refusal :=
  match i with
  | .unknown0 => Sys2Proof.Machine.execUnknown0 s
  | .load r xy => Sys2Proof.Machine.execLoad r xy s
  | .loadImm r xy => Sys2Proof.Machine.execLoadImm r xy s
  | .store r xy => Sys2Proof.Machine.execStore r xy s
  | .move x y => Sys2Proof.Machine.execMove x y s
  | .add r x y => Sys2Proof.Machine.execAdd r x y s
  | .addFloat r x y => Sys2Proof.Machine.execAddFloat r x y s
  | .unknown7 => Sys2Proof.Machine.execUnknown7 s
  | .unknown8 => Sys2Proof.Machine.execUnknown8 s
  | .unknown9 => Sys2Proof.Machine.execUnknown9 s
  | .unknownA => Sys2Proof.Machine.execUnknownA s
  | .jumpeq r xy => Sys2Proof.Machine.execJumpeq r xy s
  | .halt => Sys2Proof.Machine.execHalt s
  | .unknownD => Sys2Proof.Machine.execUnknownD s
  | .unknownE => Sys2Proof.Machine.execUnknownE s
  | .unknownF => Sys2Proof.Machine.execUnknownF s

end Sys2Proof.Machine
end

