-- ==== Sys2Proof/Machine/Step.lean ====
section
/-! DEFINITION. One step of the machine (R80), and the placing of an instruction where the next step fetches. -/

namespace Sys2Proof.Machine

/-- `step()` (R80): with `pc < psize` the fetch, execute and the end of the step; otherwise RanOff, which fetches
nothing and changes nothing (R86; log entry 7). -/
def step (s : State) : Host.Outcome State Fault Refusal :=
  if s.guard then mapNext State.endStep (exec (decode s.beginStep.ir) s.beginStep) else .next s

/-- The state whose next step fetches and runs the given table word. -/
def State.withFetchWord (s : State) (nbits w : Nat) : State :=
  s.placeFetchWord (tableWord nbits w)

end Sys2Proof.Machine
end

