-- ==== Sys2Proof/Machine/Commands.lean ====
section
/-! DEFINITION. The host commands (R36, R208): `reset`, `load` at the word port and through the text adapter, `step`,
`run` and `status`. The host acts between steps only (R57): a command is a function of a whole state, and no step
runs inside one but those of `step` and `run`. -/

namespace Sys2Proof.Machine

/-- How a `step` or a `run` ended (R80, R86). -/
inductive StepResult where
  /-- Continue: the instruction returned continue. -/
  | continued
  /-- Halted: a HALT was executed. -/
  | halted
  /-- Faulted: an unknown opcode was executed. -/
  | faulted
  /-- RanOff: the guard failed and nothing was executed. -/
  | ranOff
deriving DecidableEq, Repr

/-- Whether a `load` succeeded (R208). -/
inductive LoadResult where
  | success
  | failure
deriving DecidableEq, Repr

/-- What `status` reads out (R179): its rendering is out of scope (R5). -/
structure StatusView where
  /-- `pc - 2`, whatever was executed (R179, C5). -/
  shownPc : Int
  /-- The instruction register. -/
  ir : IWord
  /-- The register bank. -/
  regs : Vector RegCell Config.numRegs
  /-- The memory. -/
  mem : Memory
deriving DecidableEq, Repr

/-- The host commands (R208). A run takes the number of steps to watch it for (R84, R90). -/
inductive Command where
  | reset
  | load (words : List IWord)
  | loadText (tokens : List (List Char))
  | step
  | run (fuel : Nat)
  | status
deriving DecidableEq, Repr

/-- What a command gives back (R208). -/
inductive Reply where
  | nothing
  | loaded (r : LoadResult)
  | stepped (r : StepResult)
  /-- `none`: the run has not ended within its fuel. -/
  | ran (r : Option StepResult)
  | status (v : StatusView)
deriving DecidableEq, Repr

/-- `reset` (R190): every piece of state at its value of rule R37; `ir`, which that rule leaves unspecified, is a free
value (U1; log entry 2). The model's own counter of free values goes on. -/
def State.hostReset (s : State) : State :=
  { State.reset with ir := Config.freeWord s.draws, draws := s.draws + 1 }

/-- The words of an image written one after the other from an address up (R193). -/
def State.writeWords (s : State) (a : Nat) : List IWord → State
  | [] => s
  | w :: ws => State.writeWords (s.writeWord a w) (a + 2) ws

/-- `psize <- 2 * n` (R193). -/
def State.setBound (s : State) (n : Nat) : State :=
  { s with psize := BitVec.ofNat 9 (2 * n) }

/-- `load(words)` at the word port (R193, R195); more than 128 words are refused (R196, U6). -/
def State.hostLoad (s : State) (words : List IWord) : Host.Outcome (LoadResult × State) Fault Refusal :=
  if imageWellFormed words then
    .next (.success, (s.writeWords Config.loadBase words).setBound words.length)
  else .refused .oversizeLoad

/-- The text adapter from token `k` on (R194): tokens are validated and written in order; the first that is not four
characters is reported and ends the load; `psize` is set only when none is. A four-character token that is not
hexadecimal (U7) and a well-formed token past the 128th (U6) are refused (log entry 9). -/
def State.loadTokens (s : State) (k : Nat) : List (List Char) → Host.Outcome (LoadResult × State) Fault Refusal
  | [] => .next (.success, s.setBound k)
  | t :: ts =>
    if tokenWellFormed t then
      if tokenHexadecimal t then
        match tokenWord t with
        | some w =>
          if k < Config.maxImageWords then
            State.loadTokens (s.writeWord (Config.loadBase + 2 * k) w) (k + 1) ts
          else .refused .oversizeLoad
        | none => .refused .nonHexToken
      else .refused .nonHexToken
    else .next (.failure, s.report (.loadFault k))

/-- `load` of a program text, given as its tokens (R73, R194). -/
def State.hostLoadText (s : State) (tokens : List (List Char)) : Host.Outcome (LoadResult × State) Fault Refusal :=
  s.loadTokens 0 tokens

/-- What a step that executed an instruction gives back, read off its phase (R80). -/
def State.stepResult (s : State) : StepResult :=
  match s.phase with
  | .fetching => .continued
  | .halted => .halted
  | .faulted => .faulted
  | .executing => .continued  -- no step ends so (R26)

/-- The `step` command (R85): one step, with its result. -/
def State.hostStep (s : State) : Host.Outcome (StepResult × State) Fault Refusal :=
  if s.guard then mapNext (fun t => (t.stepResult, t)) (step s) else .next (.ranOff, s)

/-- The `run` command watched for `fuel` steps (R84, R90): steps until one gives something other than Continue. -/
def State.hostRun (s : State) : Nat → Host.Outcome (Option StepResult × State) Fault Refusal
  | 0 => .next (none, s)
  | fuel + 1 =>
    match s.hostStep with
    | .next (.continued, t) => State.hostRun t fuel
    | .next (.halted, t) => .next (some .halted, t)
    | .next (.faulted, t) => .next (some .faulted, t)
    | .next (.ranOff, t) => .next (some .ranOff, t)
    | .fault r => .fault r
    | .refused r => .refused r

/-- `status` (R179): a read-out that changes nothing. -/
def State.hostStatus (s : State) : StatusView where
  shownPc := (s.pc.toNat : Int) - 2
  ir := s.ir
  regs := s.regs
  mem := s.mem

/-- A host command at an instruction boundary (R208). -/
def hostCommand (c : Command) (s : State) : Host.Outcome (Reply × State) Fault Refusal :=
  match c with
  | .reset => .next (.nothing, s.hostReset)
  | .load words => mapNext (fun p => (.loaded p.1, p.2)) (s.hostLoad words)
  | .loadText tokens => mapNext (fun p => (.loaded p.1, p.2)) (s.hostLoadText tokens)
  | .step => mapNext (fun p => (.stepped p.1, p.2)) s.hostStep
  | .run fuel => mapNext (fun p => (.ran p.1, p.2)) (s.hostRun fuel)
  | .status => .next (.status s.hostStatus, s)

end Sys2Proof.Machine
end

