-- ==== Sys2Proof/Safety.lean ====
section
/-! DEFINITION. The terms claims are stated in: a legal state, what two states have in common, and the instructions
whose operands the spec gives a meaning. -/

namespace Sys2Proof.Machine

/-- A state at an instruction boundary as the rules allow it: memory in its canonical form, `pc` at most 257 (R21),
`psize` even and at most 256 (R23), `phase` not Executing (R26). -/
structure State.Legal (s : State) : Prop where
  mem_wf : Memory.wf s.mem
  pc_le : s.pc.toNat ≤ 257
  psize_le : s.psize.toNat ≤ 256
  psize_even : s.psize.toNat % 2 = 0
  phase_ne : s.phase ≠ .executing

/-- Register `i` holds a byte (R12, tag clear). -/
def State.holdsByte (s : State) (i : RegIdx) : Prop := ∃ b, s.x i = .byte b

/-- Register `i` holds a byte of two decimal digits (R122). -/
def State.holdsDecimal (s : State) (i : RegIdx) : Prop := ∃ b, s.x i = .byte b ∧ isDecimal b = true

/-- No register is `Opaque`. -/
def State.allBytes (s : State) : Prop := ∀ i, s.holdsByte i

/-- The operands on which the spec gives the instruction an effect: bytes where it reads a byte (U4), decimal digits
where ADD_FLOAT reads them (U3). -/
def OperandsDefined (i : Instr) (s : State) : Prop :=
  match i with
  | .store r _ => s.holdsByte r
  | .add _ x y => s.holdsByte x ∧ s.holdsByte y
  | .addFloat _ x y => s.holdsDecimal x ∧ s.holdsDecimal y
  | .jumpeq r _ => s.holdsByte r ∧ s.holdsByte 0
  | .load _ _ | .loadImm _ _ | .move _ _ | .halt => True
  | .unknown0 | .unknown7 | .unknown8 | .unknown9 | .unknownA | .unknownD | .unknownE | .unknownF => True

/-- Every register holds the same cell. -/
def SameRegs (s t : State) : Prop := ∀ i, t.x i = s.x i

/-- Every register but `r` holds the same cell. -/
def SameRegsBut (r : RegIdx) (s t : State) : Prop := ∀ i, i ≠ r → t.x i = s.x i

/-- Every byte of memory reads the same. -/
def SameMem (s t : State) : Prop := ∀ a, t.byteAt a = s.byteAt a

/-- Every byte of memory but the one at `a` reads the same. -/
def SameMemBut (a : Nat) (s t : State) : Prop := ∀ b, b ≠ a → t.byteAt b = s.byteAt b

/-- `ir` and `psize`, which no instruction writes (R22, R23), are the same. -/
def SameIrBound (s t : State) : Prop := t.ir = s.ir ∧ t.psize = s.psize

/-- What an instruction that returns continue and does not jump leaves alone besides registers and memory: `pc` (the
end of the step adds 2), `phase`, `ir`, `psize`, the reports. -/
def SameControl (s t : State) : Prop :=
  t.pc = s.pc ∧ t.phase = s.phase ∧ SameIrBound s t ∧ t.reports = s.reports

/-- Two register cells are the same but for the data bits of an `Opaque` cell (R12, U5). -/
def AgreeCell (c d : RegCell) : Prop := c = d ∨ ∃ b b', c = .opaqueText b ∧ d = .opaqueText b'

/-- Two states are the same but for the data bits of `Opaque` cells. -/
def AgreeButOpaqueBits (s t : State) : Prop := (∀ i, AgreeCell (s.x i) (t.x i)) ∧ { t with regs := s.regs } = s

/-- A step is safe when it answers a next state. -/
def SafeStep (s : State) : Prop := ∃ t, step s = .next t

/-- The word the next fetch reads: the byte at `pc` high, the byte at `pc + 1` low (R46, R81). -/
def State.fetchedWord (s : State) : IWord := wordOfBytes (s.byteAt s.pc.toNat) (s.byteAt (s.pc.toNat + 1))

/-- The instruction the next step executes. -/
def State.nextInstr (s : State) : Instr := decode s.fetchedWord

/-- The bounds reports of the next fetch, first byte first (R168): at a reachable `pc` none but the one at 255. -/
def State.fetchReports (s : State) : List ReportEvent :=
  (if s.pc.toNat < Config.memSize then [] else [.boundsFault .mem .read s.pc.toNat])
    ++ (if s.pc.toNat + 1 < Config.memSize then [] else [.boundsFault .mem .read (s.pc.toNat + 1)])

/-- What execute reports: HALT its message, an unknown opcode its fault, the others nothing (R168, R178). -/
def execReports (i : Instr) (word : IWord) : List ReportEvent :=
  if i = .halt then [.haltMessage] else if i.isUnknown then [.unknownOpcode word] else []

end Sys2Proof.Machine
end

