-- ==== Sys2Proof/Certificates/Slice0/Obligations.lean ====
section
/-! DEFINITION. The statements for the provers, by subject: encoding; the access contracts; the step; the
instructions, one by one; whole-machine rules; reset, load and the other host commands. -/

open Sys2Proof Sys2Proof.Machine

/-! ## Encoding -/

/-- R61: the bits of every field of an instruction word, and XY as 16*X + Y. -/
def Obligations.InstructionFieldBits : Prop :=
  ∀ w : IWord,
    (opField w).toNat = w.toNat / 4096 ∧ (rField w).toNat = w.toNat / 256 % 16 ∧
      (xField w).toNat = w.toNat / 16 % 16 ∧ (yField w).toNat = w.toNat % 16 ∧
      (xyField w).toNat = w.toNat % 256 ∧ (xyField w).toNat = 16 * (xField w).toNat + (yField w).toNat

/-- R68: what each of the sixteen opcode values decodes to, whatever the rest of the word. -/
def Obligations.OpcodeMapIsTheTable : Prop :=
  ∀ w : IWord,
    (opField w = 0x0 → decode w = .unknown0) ∧
    (opField w = 0x1 → decode w = .load (rField w) (xyField w)) ∧
    (opField w = 0x2 → decode w = .loadImm (rField w) (xyField w)) ∧
    (opField w = 0x3 → decode w = .store (rField w) (xyField w)) ∧
    (opField w = 0x4 → decode w = .move (xField w) (yField w)) ∧
    (opField w = 0x5 → decode w = .add (rField w) (xField w) (yField w)) ∧
    (opField w = 0x6 → decode w = .addFloat (rField w) (xField w) (yField w)) ∧
    (opField w = 0x7 → decode w = .unknown7) ∧
    (opField w = 0x8 → decode w = .unknown8) ∧
    (opField w = 0x9 → decode w = .unknown9) ∧
    (opField w = 0xA → decode w = .unknownA) ∧
    (opField w = 0xB → decode w = .jumpeq (rField w) (xyField w)) ∧
    (opField w = 0xC → decode w = .halt) ∧
    (opField w = 0xD → decode w = .unknownD) ∧
    (opField w = 0xE → decode w = .unknownE) ∧
    (opField w = 0xF → decode w = .unknownF)

/-- 30_encoding.md sections 1 to 3: every instruction decodes from its own word, and from its own two bytes whatever
bytes follow. -/
def Obligations.DecodeOfEncodeIsTheInstruction : Prop :=
  ∀ i : Instr, decode (encode i) = i ∧ ∀ rest : List Byte, decodeBytes (encodeBytes i ++ rest) = .ok (i, rest)

/-- R69 (an inference the spec marks as derived): encoding what a word decodes to gives the word back, but for 0 in
the fields its form ignores: bits 11:8 of MOVE, bits 11:0 of HALT and of the unknown opcodes. -/
def Obligations.EncodeOfDecodeIsTheCanonicalWord : Prop :=
  ∀ w : IWord,
    (opField w ∈ ([0x1, 0x2, 0x3, 0x5, 0x6, 0xB] : List Nibble) → (encode (decode w)).toNat = w.toNat) ∧
    (opField w = 0x4 → (encode (decode w)).toNat = 0x4000 + w.toNat % 256) ∧
    (opField w ∈ ([0x0, 0x7, 0x8, 0x9, 0xA, 0xC, 0xD, 0xE, 0xF] : List Nibble) →
      (encode (decode w)).toNat = w.toNat / 4096 * 4096)

/-- 95_test_vectors.md section 2.1: words written out in the spec, one of each family. -/
def Obligations.SampleWordsDecode : Prop :=
  decode 0x1280 = .load 2 0x80 ∧ decode 0x21A3 = .loadImm 1 0xA3 ∧ decode 0x3FFF = .store 0xF 0xFF ∧
    decode 0x4F23 = .move 2 3 ∧ decode 0x5201 = .add 2 0 1 ∧ decode 0x6312 = .addFloat 3 1 2 ∧
    decode 0xB108 = .jumpeq 1 0x08 ∧ decode 0xCABC = .halt ∧ decode 0x7123 = .unknown7

/-! ## The access contracts -/

/-- R41: an in-range read returns the cell and changes nothing. -/
def Obligations.InRangeReadReturnsTheCell : Prop :=
  ∀ (s : State) (a : Nat), a < 256 → s.memRead a = (s.mem.read a, s)

/-- 20_memory.md section 2 (R42): an out-of-range read returns 0x00 and its only effect is one bounds report. -/
def Obligations.OutOfRangeReadReportsAndReturnsZero : Prop :=
  ∀ (s : State) (a : Nat), 256 ≤ a →
    s.memRead a = (0, { s with reports := s.reports ++ [.boundsFault .mem .read a] })

/-- R43: an in-range write sets its cell and changes nothing else; a read of it then returns the written byte. -/
def Obligations.WriteThenReadReturnsTheByte : Prop :=
  ∀ (s : State) (a : Nat) (v : Byte), a < 256 →
    (s.memWrite a v).memRead a = (v, s.memWrite a v) ∧ SameMemBut a s (s.memWrite a v) ∧
      { s.memWrite a v with mem := s.mem } = s

/-- 20_memory.md section 2 (R44): an out-of-range write writes nothing and its only effect is one bounds report. -/
def Obligations.OutOfRangeWriteReportsAndWritesNothing : Prop :=
  ∀ (s : State) (a : Nat) (v : Byte), 256 ≤ a →
    s.memWrite a v = { s with reports := s.reports ++ [.boundsFault .mem .write a] }

/-- 10_state.md section 4 (R16): the register bank's contract at any index; with a 4-bit field it is exactly `x[i]`
and `x[i] <- c`, and a write changes that register alone. -/
def Obligations.RegisterBankContract : Prop :=
  (∀ (s : State) (i : RegIdx) (c : RegCell),
    s.regRead i.toNat = (s.x i, s) ∧ (s.regWrite i.toNat c).x i = c ∧ SameRegsBut i s (s.regWrite i.toNat c) ∧
      { s.regWrite i.toNat c with regs := s.regs } = s) ∧
  (∀ (s : State) (i : Nat) (c : RegCell), 16 ≤ i →
    s.regRead i = (.byte 0, { s with reports := s.reports ++ [.boundsFault .reg .read i] }) ∧
      s.regWrite i c = { s with reports := s.reports ++ [.boundsFault .reg .write i] })

/-! ## The step -/

/-- R81: fetch reads the byte at `pc` to `ir[15:8]` and the byte at `pc + 1` to `ir[7:0]`; at `pc` = 255 the second
read is reported and gives 0x00, and the step executes the word so read; fetch changes `ir` (and that report) only. -/
def Obligations.FetchReadsTwoCellsBigEndian : Prop :=
  ∀ s : State, s.pc.toNat ≤ 255 →
    highByte s.fetch.ir = s.mem.read s.pc.toNat ∧
      (s.pc.toNat < 255 → lowByte s.fetch.ir = s.mem.read (s.pc.toNat + 1) ∧ s.fetch.reports = s.reports) ∧
      (s.pc.toNat = 255 → lowByte s.fetch.ir = 0 ∧
        s.fetch.reports = s.reports ++ [.boundsFault .mem .read 256]) ∧
      { s.fetch with ir := s.ir, reports := s.reports } = s ∧
      (s.guard = true →
        step s = mapNext State.endStep (exec (decode s.fetch.ir) { s.fetch with phase := .executing }))

/-- 40_instruction_cycle.md section 1: with the guard open, when the two bytes at `pc` decode to `i`, the step is
`exec i` in the state that holds the fetched word, phase Executing and the bounds reports of the fetch, followed by
the end of the step: after continue `pc + 2` and phase Fetching, after a stop nothing. That execute's continue signal
is read off the phase is the model's own (log entry 5). -/
def Obligations.StepRunsTheDecodedInstruction : Prop :=
  (∀ (s : State) (i : Instr), s.guard = true →
    decodeBytes [s.byteAt s.pc.toNat, s.byteAt (s.pc.toNat + 1)] = .ok (i, []) →
    step s = mapNext State.endStep (exec i
      { s with
        ir := wordOfBytes (s.byteAt s.pc.toNat) (s.byteAt (s.pc.toNat + 1))
        phase := .executing
        reports := s.reports
          ++ (if s.pc.toNat < 256 then [] else [.boundsFault .mem .read s.pc.toNat])
          ++ (if s.pc.toNat + 1 < 256 then [] else [.boundsFault .mem .read (s.pc.toNat + 1)]) })) ∧
  (∀ t : State, t.endStep = if t.phase = .executing then { t with pc := t.pc + 2, phase := .fetching } else t)

/-- 40_instruction_cycle.md section 2 (R86): with `pc ≥ psize` a step fetches nothing and changes nothing, and the
`step` command gives back RanOff. That such a step answers the same state is the model's own (log entry 7). -/
def Obligations.RanOffChangesNothing : Prop :=
  ∀ s : State, s.psize.toNat ≤ s.pc.toNat → step s = .next s ∧ s.hostStep = .next (.ranOff, s)

/-- 40_instruction_cycle.md section 1 (R80): the `step` command with the guard open is the step, and what it gives
back says how the step ended: Continue with phase Fetching, Halted with phase Halted, Faulted with phase Faulted. -/
def Obligations.StepCommandNamesTheOutcome : Prop :=
  ∀ (s t : State) (o : StepResult), s.guard = true → s.hostStep = .next (o, t) →
    step s = .next t ∧
      ((o = .continued ∧ t.phase = .fetching) ∨ (o = .halted ∧ t.phase = .halted) ∨
        (o = .faulted ∧ t.phase = .faulted))

/-- R19: how each instruction leaves `pc`, with `a` the address it was fetched from: `a + 2`; XY + 2 for a taken
JUMPEQ; `a` for an unknown opcode. -/
def Obligations.PcAfterEachInstruction : Prop :=
  ∀ s t : State, s.guard = true → step s = .next t →
    (∀ r xy, s.nextInstr = .jumpeq r xy →
      (s.x r = s.x 0 → t.pc = xy.setWidth 9 + 2) ∧ (s.x r ≠ s.x 0 → t.pc = s.pc + 2)) ∧
    (s.nextInstr.isUnknown = true → t.pc = s.pc) ∧
    ((∀ r xy, s.nextInstr ≠ .jumpeq r xy) → s.nextInstr.isUnknown = false → t.pc = s.pc + 2)

/-- 10_state.md section 6 (R26): the phase at the end of an executed step is Halted after HALT, Faulted after an
unknown opcode and Fetching after every other instruction. -/
def Obligations.PhaseAfterEachInstruction : Prop :=
  ∀ s t : State, s.guard = true → step s = .next t →
    t.phase = if s.nextInstr = .halt then .halted else if s.nextInstr.isUnknown then .faulted else .fetching

/-- 40_instruction_cycle.md section 2 (R88, decision D9 of the spec): the guard and the executed step do not look at
the phase, so Halted and Faulted are not latched. -/
def Obligations.PhaseIsNotConsulted : Prop :=
  ∀ (s : State) (p : Phase), { s with phase := p }.guard = s.guard ∧
    (s.guard = true → step { s with phase := p } = step s)

/-- 60_exceptions.md sections 3 and 6 (R168, R178): what a step appends to the report stream, in order: the bounds
reports of its fetch, then HALT's message or the unknown opcode. Nothing is ever taken out of the stream. -/
def Obligations.ReportsOfAStepInOrder : Prop :=
  ∀ s t : State, s.guard = true → step s = .next t →
    t.reports = s.reports ++ s.fetchReports ++ execReports s.nextInstr s.fetchedWord

/-- 10_state.md section 6 (R22, R23): no instruction writes `psize`, and after an executed step `ir` is the fetched
word. -/
def Obligations.StepLeavesBoundAndHoldsFetchedWord : Prop :=
  ∀ s t : State, step s = .next t → t.psize = s.psize ∧ (s.guard = true → t.ir = s.fetchedWord)

/-! ## The instructions -/

/-- R100: `1RXY` is LOAD; it answers the state whose register R holds the byte of MEM[XY] and which is otherwise the
same. -/
def Obligations.LoadCopiesMemoryToRegister : Prop :=
  ∀ (r : RegIdx) (xy : Byte), decode (encodeRM 0x1 r xy) = .load r xy ∧
    ∀ s : State, ∃ t, exec (.load r xy) s = .next t ∧ t.x r = .byte (s.mem.read xy.toNat) ∧
      SameRegsBut r s t ∧ SameMem s t ∧ SameControl s t ∧ t.draws = s.draws

/-- R101: `2RXY` is LOAD_IMM; it answers the state whose register R holds the byte XY itself and which is otherwise
the same. -/
def Obligations.LoadImmWritesTheLiteralByte : Prop :=
  ∀ (r : RegIdx) (xy : Byte), decode (encodeRM 0x2 r xy) = .loadImm r xy ∧
    ∀ s : State, ∃ t, exec (.loadImm r xy) s = .next t ∧ t.x r = .byte xy ∧
      SameRegsBut r s t ∧ SameMem s t ∧ SameControl s t ∧ t.draws = s.draws

/-- 41_data_transfer.md (R102), for a source that is a byte: STORE answers the state in which the byte at XY is the
register's byte and which is otherwise the same. -/
def Obligations.StoreWritesTheRegisterByte : Prop :=
  ∀ (r : RegIdx) (xy : Byte) (s : State) (b : Byte), s.x r = .byte b →
    ∃ t, exec (.store r xy) s = .next t ∧ t.byteAt xy.toNat = b ∧ SameMemBut xy.toNat s t ∧
      SameRegs s t ∧ SameControl s t ∧ t.draws = s.draws

/-- 41_data_transfer.md (R103): MOVE answers the state whose register Y holds the whole cell of register X, tag
included, and which is otherwise the same. -/
def Obligations.MoveCopiesTheWholeCell : Prop :=
  ∀ (x y : RegIdx) (s : State), ∃ t, exec (.move x y) s = .next t ∧ t.x y = s.x x ∧
    SameRegsBut y s t ∧ SameMem s t ∧ SameControl s t ∧ t.draws = s.draws

/-- 42_arithmetic.md (R120), for sources that are bytes: ADD answers the state whose register R holds the sum of the
two bytes, reduced to its low four bits when it is above 0x0F, and which is otherwise the same. -/
def Obligations.AddWritesTheMaskedSum : Prop :=
  ∀ (r x y : RegIdx) (s : State) (a b : Byte), s.x x = .byte a → s.x y = .byte b →
    ∃ (t : State) (res : Byte), exec (.add r x y) s = .next t ∧ t.x r = .byte res ∧
      res.toNat = (if a.toNat + b.toNat > 15 then (a.toNat + b.toNat) % 16 else a.toNat + b.toNat) ∧
      SameRegsBut r s t ∧ SameMem s t ∧ SameControl s t ∧ t.draws = s.draws

/-- 42_arithmetic.md section 1 (R121, an inference the spec marks as derived): the ADD rule is addition modulo 16 of
the low hex digits, commutative, with a result of at most 15. -/
def Obligations.AddIsAdditionModuloSixteen : Prop :=
  ∀ a b : Byte, (aluAdd a b).toNat = (a.toNat + b.toNat) % 16 ∧
    (aluAdd a b).toNat = (a.toNat % 16 + b.toNat % 16) % 16 ∧ aluAdd a b = aluAdd b a ∧ (aluAdd a b).toNat ≤ 15

/-- 42_arithmetic.md section 2 (R122): on sources that are bytes of decimal digits ADD_FLOAT answers the state whose
register R is `Opaque`, with data bits nothing is said about, and which is otherwise the same. -/
def Obligations.AddFloatLeavesAnOpaqueCell : Prop :=
  ∀ (r x y : RegIdx) (s : State), s.holdsDecimal x → s.holdsDecimal y →
    ∃ (t : State) (bits : Byte), exec (.addFloat r x y) s = .next t ∧ t.x r = .opaqueText bits ∧
      SameRegsBut r s t ∧ SameMem s t ∧ SameControl s t

/-- 42_arithmetic.md section 2 (R122, R124): in the domain of ADD_FLOAT both decimal readings are at most 99 and
their sum at most 198. -/
def Obligations.DecimalSumAtMost198 : Prop :=
  ∀ a b : Byte, floatDomain a b = true →
    decimalReading a ≤ 99 ∧ decimalReading b ≤ 99 ∧ decimalReading a + decimalReading b ≤ 198

/-- 43_control.md (R140), for operands that are bytes: JUMPEQ answers the state whose `pc` is XY when the bytes of R
and R0 are equal, unchanged when not, and which is otherwise the same. -/
def Obligations.JumpeqLoadsXYWhenEqual : Prop :=
  ∀ (r : RegIdx) (xy : Byte) (s : State) (a b : Byte), s.x r = .byte a → s.x 0 = .byte b →
    ∃ t, exec (.jumpeq r xy) s = .next t ∧ (a = b → t.pc.toNat = xy.toNat) ∧ (a ≠ b → t.pc = s.pc) ∧
      t.phase = s.phase ∧ SameIrBound s t ∧ t.reports = s.reports ∧ SameRegs s t ∧ SameMem s t ∧
      t.draws = s.draws

/-- R141: a word with op 0xC is HALT whatever its other fields; HALT reports "Program Halted", advances `pc` by 2
itself, sets phase Halted and changes nothing else; the step ends there, with outcome Halted and `pc` advanced once;
it is not latched: with the guard open the next step runs the next word; and no other instruction ends a step as
Halted. -/
def Obligations.HaltReportsAdvancesAndStops : Prop :=
  (∀ w : IWord, opField w = 0xC → decode w = .halt) ∧
  ReportEvent.haltMessage.fixedText = some "Program Halted" ∧
  (∀ s : State, ∃ t, exec .halt s = .next t ∧ t.reports = s.reports ++ [.haltMessage] ∧ t.pc = s.pc + 2 ∧
    t.phase = .halted ∧ SameIrBound s t ∧ SameRegs s t ∧ SameMem s t ∧ t.draws = s.draws) ∧
  (∀ s : State, s.guard = true → s.nextInstr = .halt →
    ∃ t, s.hostStep = .next (.halted, t) ∧ t.pc = s.pc + 2 ∧ t.phase = .halted ∧
      (t.guard = true → step t = mapNext State.endStep (exec t.nextInstr t.beginStep))) ∧
  (∀ s t : State, s.guard = true → s.hostStep = .next (.halted, t) → s.nextInstr = .halt)

/-- 43_control.md (R142): each of the eight unknown opcodes answers the state with the report of `ir` appended and
phase Faulted, and which is otherwise the same, `pc` included. -/
def Obligations.EveryUnknownOpcodeFaults : Prop :=
  ∀ i ∈ ([.unknown0, .unknown7, .unknown8, .unknown9, .unknownA, .unknownD, .unknownE, .unknownF] : List Instr),
    ∀ s : State, ∃ t, exec i s = .next t ∧ t.reports = s.reports ++ [.unknownOpcode s.ir] ∧ t.phase = .faulted ∧
      t.pc = s.pc ∧ SameIrBound s t ∧ SameRegs s t ∧ SameMem s t ∧ t.draws = s.draws

/-- R163: the fault is raised exactly when `op` is none of 1, 2, 3, 4, 5, 6, 0xB, 0xC: on such a word the step ends as
Faulted with the word reported and in `ir`, `pc` at the word, and registers and memory as they were; and an executed
step that ends in phase Faulted, that appends the report of an unknown opcode, or whose command answers Faulted, has
executed such a word. -/
def Obligations.UnknownOpcodeFaultIsPrecise : Prop :=
  (∀ w : IWord, (decode w).isUnknown = true ↔
    opField w ∉ ([0x1, 0x2, 0x3, 0x4, 0x5, 0x6, 0xB, 0xC] : List Nibble)) ∧
  (∀ s : State, s.guard = true → s.nextInstr.isUnknown = true →
    ∃ t, step s = .next t ∧ s.hostStep = .next (.faulted, t) ∧
      t.reports = s.reports ++ s.fetchReports ++ [.unknownOpcode s.fetchedWord] ∧ t.phase = .faulted ∧
      t.pc = s.pc ∧ t.ir = s.fetchedWord ∧ SameRegs s t ∧ SameMem s t) ∧
  (∀ s t : State, s.guard = true → step s = .next t → t.phase = .faulted → s.nextInstr.isUnknown = true) ∧
  (∀ (s t : State) (es : List ReportEvent) (w : IWord), s.guard = true → step s = .next t →
    t.reports = s.reports ++ es → .unknownOpcode w ∈ es → s.nextInstr.isUnknown = true ∧ w = s.fetchedWord) ∧
  (∀ s t : State, s.hostStep = .next (.faulted, t) → s.guard = true ∧ s.nextInstr.isUnknown = true)

/-- 93_implementation_defined.md U4 and 92_eei_decisions.md D6 (decisions of the spec): STORE, ADD, ADD_FLOAT and
JUMPEQ are refused when they read an `Opaque` register as a byte, JUMPEQ also when R is 0. -/
def Obligations.OpaqueOperandsAreRefused : Prop :=
  ∀ (s : State) (p : RegIdx) (bits : Byte), s.x p = .opaqueText bits →
    (∀ xy, exec (.store p xy) s = .refused (.opaqueOperand p)) ∧
    (∀ r y, exec (.add r p y) s = .refused (.opaqueOperand p)) ∧
    (∀ r x, s.holdsByte x → exec (.add r x p) s = .refused (.opaqueOperand p)) ∧
    (∀ r y, exec (.addFloat r p y) s = .refused (.opaqueOperand p)) ∧
    (∀ r x, s.holdsByte x → exec (.addFloat r x p) s = .refused (.opaqueOperand p)) ∧
    (∀ xy, exec (.jumpeq p xy) s = .refused (.opaqueOperand p)) ∧
    (p = 0 → ∀ r xy, s.holdsByte r → exec (.jumpeq r xy) s = .refused (.opaqueOperand 0))

/-- 93_implementation_defined.md U3 and 92_eei_decisions.md D5 (decisions of the spec): ADD_FLOAT is refused when its
sources are bytes and one of them has a hex digit above 9. -/
def Obligations.NonDecimalOperandsAreRefused : Prop :=
  ∀ (r x y : RegIdx) (s : State), s.holdsByte x → s.holdsByte y → (¬ s.holdsDecimal x ∨ ¬ s.holdsDecimal y) →
    exec (.addFloat r x y) s = .refused .nonDecimalOperand

/-! ## Whole-machine rules -/

/-- 92_eei_decisions.md D5 and D6 with the instruction rules: an instruction answers a next state exactly when its
operands are ones the spec gives it an effect on, so nothing else is refused. -/
def Obligations.ExecAnswersExactlyOnDefinedOperands : Prop :=
  ∀ (i : Instr) (s : State), (∃ t, exec i s = .next t) ↔ OperandsDefined i s

/-- 40_instruction_cycle.md with 92_eei_decisions.md D5 and D6: a step answers a next state exactly when the guard is
closed or the operands of the fetched instruction are ones the spec gives it an effect on. -/
def Obligations.StepIsSafeExactlyOnDefinedOperands : Prop :=
  ∀ s : State, SafeStep s ↔ (s.guard = true → OperandsDefined s.nextInstr s)

/-- 10_state.md sections 2 to 6 (R13, R21, R23, R26), R21 being an inference the spec marks as derived: every step
keeps a legal state legal: memory in its canonical form, `pc` at most 257, `psize` even and at most 256, phase not
Executing. -/
def Obligations.StepKeepsLegalStates : Prop :=
  ∀ s t : State, s.Legal → step s = .next t → t.Legal

/-- 10_state.md section 8 (R37): the state after reset is legal. -/
def Obligations.ResetIsLegal : Prop := State.reset.Legal

/-- 70_reset_and_hazards.md section 3 (R208): every host command keeps a legal state legal. -/
def Obligations.HostCommandsKeepLegalStates : Prop :=
  ∀ (c : Command) (s t : State) (a : Reply), s.Legal → hostCommand c s = .next (a, t) → t.Legal

/-- 10_state.md section 5 (R21, an inference the spec marks as derived): in a legal state about to execute, `pc + 2`
and `XY + 2` are exact in 9 bits and the fetch reads at most one byte past the memory. -/
def Obligations.PcArithmeticIsExact : Prop :=
  ∀ s : State, s.Legal → s.guard = true →
    s.pc.toNat + 1 ≤ 256 ∧ (s.pc + 2).toNat = s.pc.toNat + 2 ∧
      ∀ xy : Byte, (xy.setWidth 9 + 2 : Addr9).toNat = xy.toNat + 2

/-- 10_state.md section 5 (R20): a step keeps the parity of `pc` or makes it that of XY in a taken JUMPEQ. -/
def Obligations.PcParityChangesOnlyByATakenJump : Prop :=
  ∀ s t : State, step s = .next t →
    t.pc.toNat % 2 = s.pc.toNat % 2 ∨
      ∃ r xy, s.nextInstr = .jumpeq r xy ∧ s.x r = s.x 0 ∧ t.pc.toNat % 2 = xy.toNat % 2

/-- 10_state.md sections 4 and 7 (R15, R39): a step changes register `i` only by an instruction that writes it, and a
byte of memory only by a STORE to its address. -/
def Obligations.OnlyTheNamedInstructionsWrite : Prop :=
  ∀ s t : State, step s = .next t →
    (∀ i, t.x i ≠ s.x i →
      (∃ xy, s.nextInstr = .load i xy) ∨ (∃ xy, s.nextInstr = .loadImm i xy) ∨ (∃ x, s.nextInstr = .move x i) ∨
        (∃ x y, s.nextInstr = .add i x y) ∨ (∃ x y, s.nextInstr = .addFloat i x y)) ∧
    (∀ a, t.byteAt a ≠ s.byteAt a → ∃ r xy, s.nextInstr = .store r xy ∧ xy.toNat = a)

/-- 41_data_transfer.md (R104, an inference the spec marks as derived): a step of one of the four data transfer
instructions changes at most its destination register, or for STORE the byte at XY, holds the instruction word,
advances `pc` by 2, leaves phase Fetching and reports nothing beyond its fetch. -/
def Obligations.DataTransferFamilyLaw : Prop :=
  ∀ s t : State, s.guard = true → step s = .next t →
    (∀ i : Instr, s.nextInstr = i →
      match i with
      | .load r _ | .loadImm r _ | .move _ r => SameRegsBut r s t ∧ SameMem s t
      | .store _ xy => SameRegs s t ∧ SameMemBut xy.toNat s t
      | .add _ _ _ | .addFloat _ _ _ | .jumpeq _ _ | .halt => True
      | .unknown0 | .unknown7 | .unknown8 | .unknown9 | .unknownA | .unknownD | .unknownE | .unknownF => True) ∧
    (s.nextInstr.opcode ∈ ([0x1, 0x2, 0x3, 0x4] : List Nibble) →
      t.ir = s.fetchedWord ∧ t.pc = s.pc + 2 ∧ t.phase = .fetching ∧ t.reports = s.reports ++ s.fetchReports)

/-- 10_state.md section 2 (R12): after a step a register is `Opaque` only if it was so with the same bits, if
ADD_FLOAT wrote it, or if MOVE copied an `Opaque` cell to it. -/
def Obligations.OpaqueComesFromAddFloatOrMove : Prop :=
  ∀ (s t : State) (i : RegIdx) (b : Byte), step s = .next t → t.x i = .opaqueText b →
    s.x i = .opaqueText b ∨ (∃ x y, s.nextInstr = .addFloat i x y) ∨
      ∃ x, s.nextInstr = .move x i ∧ s.x x = .opaqueText b

/-- 10_state.md section 2 (R12): no rule reads the data bits of an `Opaque` cell: two states that differ in such bits
only step to two states that differ in such bits only, or are refused alike. -/
def Obligations.OpaqueBitsAreNeverRead : Prop :=
  ∀ s s' : State, AgreeButOpaqueBits s s' →
    (∀ t, step s = .next t → ∃ t', step s' = .next t' ∧ AgreeButOpaqueBits t t') ∧
      (∀ q, step s = .refused q → step s' = .refused q)

/-- 10_state.md section 6 (R24): the core never reads the report stream: a step in a state with another stream does
the same to everything else and appends the same events. -/
def Obligations.ReportStreamIsNeverRead : Prop :=
  ∀ (s t : State) (rs : List ReportEvent), step s = .next t →
    ∃ (t' : State) (es : List ReportEvent), step { s with reports := rs } = .next t' ∧ t.reports = s.reports ++ es ∧
      t'.reports = rs ++ es ∧ { t' with reports := t.reports } = t

/-- 20_memory.md section 7 (R55, an inference the spec marks as derived): a STORE is seen by a later fetch of its
byte, as the high byte at its address and as the low byte at the address before. -/
def Obligations.StoreIsSeenByLaterFetch : Prop :=
  ∀ (r : RegIdx) (xy : Byte) (s t u : State) (b : Byte), s.x r = .byte b → exec (.store r xy) s = .next t →
    u.mem = t.mem →
    (u.pc.toNat = xy.toNat → highByte u.fetch.ir = b) ∧ (u.pc.toNat + 1 = xy.toNat → lowByte u.fetch.ir = b)

/-- 43_control.md (R145, an inference the spec marks as derived): a taken JUMPEQ with XY = A - 2 continues at A and
one with XY = A, taken or not, at A + 2; neither changes a register or memory. -/
def Obligations.JumpeqSelfLoopAndNoOperation : Prop :=
  ∀ (s : State) (r : RegIdx) (xy : Byte), s.guard = true → s.nextInstr = .jumpeq r xy → s.holdsByte r →
    s.holdsByte 0 →
    ∃ t, step s = .next t ∧ SameRegs s t ∧ SameMem s t ∧
      (s.x r = s.x 0 → s.pc.toNat = xy.toNat + 2 → t.pc = s.pc) ∧ (s.pc.toNat = xy.toNat → t.pc = s.pc + 2)

/-- 70_reset_and_hazards.md section 4 (R198, an inference the spec marks as derived): a taken jump continues at an
address from 2 to 257, so never at 0 or 1. -/
def Obligations.TakenJumpTargetsAreTwoTo257 : Prop :=
  ∀ (s t : State) (r : RegIdx) (xy : Byte), s.guard = true → s.nextInstr = .jumpeq r xy → s.x r = s.x 0 →
    step s = .next t → t.pc.toNat = xy.toNat + 2 ∧ 2 ≤ t.pc.toNat ∧ t.pc.toNat ≤ 257

/-! ## Reset, load and the other host commands -/

/-- 10_state.md section 8 (R37): every memory byte 0x00, every register the byte 0x00, `pc` 0, `psize` 0, phase
Fetching and no report, in the state after reset and after the host command `reset`. Of `ir`, to which the spec gives
no value (the model's own: log entry 2), nothing is said. -/
def Obligations.ResetValues : Prop :=
  ∀ t : State, (t = State.reset ∨ ∃ s : State, t = s.hostReset) →
    (∀ a, t.byteAt a = 0) ∧ (∀ i, t.x i = .byte 0) ∧ t.pc = 0 ∧ t.psize = 0 ∧ t.phase = .fetching ∧ t.reports = []

/-- R191: execution starts at address 0; right after reset `step` and `run` execute nothing and give RanOff; once a
load of at least one word has succeeded, the first instruction executed is the word at addresses 0 and 1. -/
def Obligations.EntryPointIsAddressZero : Prop :=
  State.reset.pc = 0 ∧ State.reset.psize = 0 ∧ State.reset.hostStep = .next (.ranOff, State.reset) ∧
    (∀ fuel, State.reset.hostRun (fuel + 1) = .next (some .ranOff, State.reset)) ∧
    (∀ (w : IWord) (ws : List IWord), (w :: ws).length ≤ 128 →
      ∃ t, State.reset.hostLoad (w :: ws) = .next (.success, t) ∧ t.guard = true ∧ t.pc = 0 ∧
        t.fetchedWord = wordOfBytes (t.byteAt 0) (t.byteAt 1) ∧ t.nextInstr = decode w)

/-- R193: a load of at most 128 words writes word k big-endian at 2k and 2k + 1, sets `psize` to twice their number,
and changes nothing else. -/
def Obligations.LoadPlacesTheImage : Prop :=
  ∀ (s : State) (words : List IWord), words.length ≤ 128 →
    ∃ t, s.hostLoad words = .next (.success, t) ∧
      (∀ (k : Nat) (h : k < words.length),
        t.byteAt (2 * k) = highByte words[k] ∧ t.byteAt (2 * k + 1) = lowByte words[k]) ∧
      t.psize.toNat = 2 * words.length ∧ (∀ a, 2 * words.length ≤ a → t.byteAt a = s.byteAt a) ∧
      SameRegs s t ∧ t.pc = s.pc ∧ t.ir = s.ir ∧ t.phase = s.phase ∧ t.reports = s.reports ∧ t.draws = s.draws

/-- 92_eei_decisions.md D3 (a decision of the spec): a load of more than 128 words is refused. -/
def Obligations.OversizeLoadIsRefused : Prop :=
  ∀ (s : State) (words : List IWord), 128 < words.length → s.hostLoad words = .refused .oversizeLoad

/-- A token that is not four characters, after at most 128 good tokens, aborts the load: the good tokens before it stay
written, it is reported by its index, and `psize` and all else stay as they were. For a text of at most 128 tokens
this is 70_reset_and_hazards.md section 2 (R194). For a longer text (128 good tokens before the malformed one, or a
long rest after it) the abort, instead of the refusal of an oversize load, is the MODEL'S CHOICE of log entry 9. -/
def Obligations.MalformedTokenAbortsTheLoad : Prop :=
  ∀ (s : State) (good : List (List Char)) (bad : List Char) (rest : List (List Char)),
    (∀ g ∈ good, tokenWellFormed g = true ∧ tokenHexadecimal g = true) → good.length ≤ 128 → bad.length ≠ 4 →
    ∃ t, s.hostLoadText (good ++ bad :: rest) = .next (.failure, t) ∧
      (∀ (k : Nat) (h : k < good.length),
        tokenWord good[k] = some (wordOfBytes (t.byteAt (2 * k)) (t.byteAt (2 * k + 1)))) ∧
      (∀ a, 2 * good.length ≤ a → t.byteAt a = s.byteAt a) ∧
      t.reports = s.reports ++ [.loadFault good.length] ∧ t.psize = s.psize ∧
      SameRegs s t ∧ t.pc = s.pc ∧ t.ir = s.ir ∧ t.phase = s.phase

/-- 70_reset_and_hazards.md section 2 (R193, R194): a program text of at most 128 good tokens loads as its words do.
What a text load refuses is said by TextLoadRefusals. -/
def Obligations.TextLoadAgreesWithWordLoad : Prop :=
  ∀ (s : State) (tokens : List (List Char)) (words : List IWord), tokens.length ≤ 128 →
    (∀ g ∈ tokens, tokenWellFormed g = true) → tokens.map tokenWord = words.map some →
    s.hostLoadText tokens = s.hostLoad words

/-- 40_instruction_cycle.md section 2 (R86): a run that ends as Halted has phase Halted and "Program Halted" last in
the reports; as Faulted, phase Faulted, `pc` at the unknown word, which is in `ir` and last in the reports; as
RanOff, `pc ≥ psize`; and no run ends as Continue. -/
def Obligations.RunEndsAsItsOutcomeSays : Prop :=
  ∀ (fuel : Nat) (s t : State) (o : StepResult), s.hostRun fuel = .next (some o, t) →
    match o with
    | .halted => t.phase = .halted ∧ t.reports.getLast? = some .haltMessage
    | .faulted => t.phase = .faulted ∧ t.guard = true ∧ t.ir = t.fetchedWord ∧ t.nextInstr.isUnknown = true ∧
        t.reports.getLast? = some (.unknownOpcode t.ir)
    | .ranOff => t.psize.toNat ≤ t.pc.toNat
    | .continued => False

/-- 40_instruction_cycle.md section 2 (R84, R85): a run is the `step` command repeated. A run watched for no step
stands where it started; watched for one step more, it goes on after a step that gives Continue, ends with what any
other step gives back, and is refused where the step is. Hence watching for longer changes nothing of a run that has
ended, and goes on from where a run that has not ended stands. The fuel is the model's own (log entry 13). -/
def Obligations.RunRepeatsTheStepCommand : Prop :=
  (∀ s : State, s.hostRun 0 = .next (none, s)) ∧
  (∀ (n : Nat) (s t : State), s.hostStep = .next (.continued, t) → s.hostRun (n + 1) = t.hostRun n) ∧
  (∀ (n : Nat) (s t : State) (o : StepResult), s.hostStep = .next (o, t) → o ≠ .continued →
    s.hostRun (n + 1) = .next (some o, t)) ∧
  (∀ (n : Nat) (s : State) (q : Refusal), s.hostStep = .refused q → s.hostRun (n + 1) = .refused q) ∧
  (∀ (n m : Nat) (s t : State) (o : StepResult),
    (s.hostRun n = .next (none, t) → s.hostRun (n + m) = t.hostRun m) ∧
      (s.hostRun n = .next (some o, t) → s.hostRun (n + m) = .next (some o, t)))

/-- 60_exceptions.md section 6 (R179): `status` changes nothing and shows `pc - 2`, which after the step of a HALT in
a legal state is the address of that HALT. -/
def Obligations.StatusShowsTheHaltAddress : Prop :=
  ∀ s : State, hostCommand .status s = .next (.status s.hostStatus, s) ∧
    s.hostStatus.shownPc = (s.pc.toNat : Int) - 2 ∧
    (∀ t : State, s.Legal → s.guard = true → s.nextInstr = .halt → step s = .next t →
      t.hostStatus.shownPc = s.pc.toNat)

/-- What a text load refuses after good tokens, whatever follows. Decisions of the spec (93_implementation_defined.md
U7, 92_eei_decisions.md D17): a four-character token that is not hexadecimal, after at most 128 good tokens. The
MODEL'S CHOICE of log entry 9: of a text of more than 128 tokens, the 129th token when it and those before it are
good; and in such a text a non-hexadecimal token reached first is the refusal that is named. -/
def Obligations.TextLoadRefusals : Prop :=
  ∀ (s : State) (good : List (List Char)) (g : List Char) (rest : List (List Char)),
    (∀ h ∈ good, tokenWellFormed h = true ∧ tokenHexadecimal h = true) → g.length = 4 →
    (good.length ≤ 128 → tokenHexadecimal g = false →
      s.hostLoadText (good ++ g :: rest) = .refused .nonHexToken) ∧
    (good.length = 128 → tokenHexadecimal g = true →
      s.hostLoadText (good ++ g :: rest) = .refused .oversizeLoad)
end

