-- ==== Sys2Proof/Laws/Alu.lean ====
section
/-! SUPPORT. The alu as arithmetic on numbers. -/

namespace Sys2Proof.Machine

/-- ADD16 as a number, in the two branches of rule R120. -/
theorem toNat_aluAdd (a b : Byte) :
    (aluAdd a b).toNat =
      if a.toNat + b.toNat > 15 then (a.toNat + b.toNat) % 16 else a.toNat + b.toNat := by
  have mask : ∀ n, n &&& 15 = n % 16 := fun n => Nat.and_two_pow_sub_one_eq_mod n 4
  simp only [aluAdd, BitVec.toNat_ofNat, mask]
  split <;> omega

theorem aluEq_iff (a b : Byte) : aluEq a b = true ↔ a = b := by
  simp [aluEq]

theorem floatDomain_iff (a b : Byte) : floatDomain a b = true ↔ isDecimal a = true ∧ isDecimal b = true := by
  simp [floatDomain]

end Sys2Proof.Machine
end

