-- ==== Sys2Proof/Laws/Decode.lean ====
section
/-! SUPPORT. The fields of a word and the words of fields as numbers, what `decode` makes of each opcode, and the
fields of every assembled word. -/

namespace Sys2Proof

/-! ## Fields as numbers (R61) -/

theorem toNat_opField (w : IWord) : (opField w).toNat = w.toNat / 4096 := by
  have := w.isLt
  simp only [opField, BitVec.extractLsb'_toNat, Nat.shiftRight_eq_div_pow]
  omega

theorem toNat_rField (w : IWord) : (rField w).toNat = w.toNat / 256 % 16 := by
  simp only [rField, BitVec.extractLsb'_toNat, Nat.shiftRight_eq_div_pow]

theorem toNat_xField (w : IWord) : (xField w).toNat = w.toNat / 16 % 16 := by
  simp only [xField, BitVec.extractLsb'_toNat, Nat.shiftRight_eq_div_pow]

theorem toNat_yField (w : IWord) : (yField w).toNat = w.toNat % 16 := by
  simp [yField, BitVec.extractLsb'_toNat]

theorem toNat_xyField (w : IWord) : (xyField w).toNat = w.toNat % 256 := by
  simp [xyField, BitVec.extractLsb'_toNat]

theorem toNat_highByte (w : IWord) : (highByte w).toNat = w.toNat / 256 := by
  have := w.isLt
  simp only [highByte, BitVec.extractLsb'_toNat, Nat.shiftRight_eq_div_pow]
  omega

theorem toNat_lowByte (w : IWord) : (lowByte w).toNat = w.toNat % 256 := by
  simp only [lowByte, BitVec.extractLsb'_toNat, Nat.shiftRight_eq_div_pow]
  omega

/-! ## Words as numbers -/

/-- Concatenation as a number: the left part is the high part. -/
theorem toNat_concat {m n : Nat} (a : BitVec m) (b : BitVec n) : (a ++ b).toNat = a.toNat * 2 ^ n + b.toNat := by
  rw [BitVec.toNat_append, ← Nat.shiftLeft_add_eq_or_of_lt b.isLt, Nat.shiftLeft_eq]

theorem toNat_wordOfBytes (hi lo : Byte) : (wordOfBytes hi lo).toNat = hi.toNat * 256 + lo.toNat :=
  toNat_concat hi lo

theorem toNat_encodeRM (op : Nibble) (r : RegIdx) (xy : Byte) :
    (encodeRM op r xy).toNat = op.toNat * 4096 + r.toNat * 256 + xy.toNat := by
  have h := toNat_concat (op ++ r) xy
  rw [toNat_concat op r] at h
  have : (encodeRM op r xy).toNat = (op ++ r ++ xy).toNat := rfl
  omega

theorem toNat_encodeRRR (op : Nibble) (r x y : RegIdx) :
    (encodeRRR op r x y).toNat = op.toNat * 4096 + r.toNat * 256 + x.toNat * 16 + y.toNat := by
  have h := toNat_concat (op ++ r ++ x) y
  rw [toNat_concat (op ++ r) x, toNat_concat op r] at h
  have : (encodeRRR op r x y).toNat = (op ++ r ++ x ++ y).toNat := rfl
  omega

theorem toNat_encodeMOV (op : Nibble) (x y : RegIdx) :
    (encodeMOV op x y).toNat = op.toNat * 4096 + x.toNat * 16 + y.toNat := by
  have h := toNat_encodeRRR op 0 x y
  have : (encodeMOV op x y).toNat = (encodeRRR op 0 x y).toNat := rfl
  have : (0 : RegIdx).toNat = 0 := rfl
  omega

theorem toNat_encodeNONE (op : Nibble) : (encodeNONE op).toNat = op.toNat * 4096 := by
  have h := toNat_concat op (0 : BitVec 12)
  have : (encodeNONE op).toNat = (op ++ (0 : BitVec 12)).toNat := rfl
  have : (0 : BitVec 12).toNat = 0 := rfl
  omega

/-! ## Fields of an assembled word -/

section fields

variable (op : Nibble) (r x y : RegIdx) (xy hi lo : Byte)

@[simp] theorem opField_encodeRM : opField (encodeRM op r xy) = op := by
  have hop := BitVec.isLt op
  have hr := BitVec.isLt r
  have hxy := BitVec.isLt xy
  exact BitVec.eq_of_toNat_eq (by rw [toNat_opField, toNat_encodeRM]; omega)

@[simp] theorem rField_encodeRM : rField (encodeRM op r xy) = r := by
  have hop := BitVec.isLt op
  have hr := BitVec.isLt r
  have hxy := BitVec.isLt xy
  exact BitVec.eq_of_toNat_eq (by rw [toNat_rField, toNat_encodeRM]; omega)

@[simp] theorem xyField_encodeRM : xyField (encodeRM op r xy) = xy := by
  have hop := BitVec.isLt op
  have hr := BitVec.isLt r
  have hxy := BitVec.isLt xy
  exact BitVec.eq_of_toNat_eq (by rw [toNat_xyField, toNat_encodeRM]; omega)

@[simp] theorem opField_encodeRRR : opField (encodeRRR op r x y) = op := by
  have hop := BitVec.isLt op
  have hr := BitVec.isLt r
  have hx := BitVec.isLt x
  have hy := BitVec.isLt y
  exact BitVec.eq_of_toNat_eq (by rw [toNat_opField, toNat_encodeRRR]; omega)

@[simp] theorem rField_encodeRRR : rField (encodeRRR op r x y) = r := by
  have hop := BitVec.isLt op
  have hr := BitVec.isLt r
  have hx := BitVec.isLt x
  have hy := BitVec.isLt y
  exact BitVec.eq_of_toNat_eq (by rw [toNat_rField, toNat_encodeRRR]; omega)

@[simp] theorem xField_encodeRRR : xField (encodeRRR op r x y) = x := by
  have hop := BitVec.isLt op
  have hr := BitVec.isLt r
  have hx := BitVec.isLt x
  have hy := BitVec.isLt y
  exact BitVec.eq_of_toNat_eq (by rw [toNat_xField, toNat_encodeRRR]; omega)

@[simp] theorem yField_encodeRRR : yField (encodeRRR op r x y) = y := by
  have hop := BitVec.isLt op
  have hr := BitVec.isLt r
  have hx := BitVec.isLt x
  have hy := BitVec.isLt y
  exact BitVec.eq_of_toNat_eq (by rw [toNat_yField, toNat_encodeRRR]; omega)

@[simp] theorem opField_encodeMOV : opField (encodeMOV op x y) = op := by
  have hop := BitVec.isLt op
  have hx := BitVec.isLt x
  have hy := BitVec.isLt y
  exact BitVec.eq_of_toNat_eq (by rw [toNat_opField, toNat_encodeMOV]; omega)

@[simp] theorem xField_encodeMOV : xField (encodeMOV op x y) = x := by
  have hop := BitVec.isLt op
  have hx := BitVec.isLt x
  have hy := BitVec.isLt y
  exact BitVec.eq_of_toNat_eq (by rw [toNat_xField, toNat_encodeMOV]; omega)

@[simp] theorem yField_encodeMOV : yField (encodeMOV op x y) = y := by
  have hop := BitVec.isLt op
  have hx := BitVec.isLt x
  have hy := BitVec.isLt y
  exact BitVec.eq_of_toNat_eq (by rw [toNat_yField, toNat_encodeMOV]; omega)

@[simp] theorem opField_encodeNONE : opField (encodeNONE op) = op := by
  have hop := op.isLt
  exact BitVec.eq_of_toNat_eq (by rw [toNat_opField, toNat_encodeNONE]; omega)

@[simp] theorem highByte_wordOfBytes : highByte (wordOfBytes hi lo) = hi := by
  have hhi := BitVec.isLt hi
  have hlo := BitVec.isLt lo
  exact BitVec.eq_of_toNat_eq (by rw [toNat_highByte, toNat_wordOfBytes]; omega)

@[simp] theorem lowByte_wordOfBytes : lowByte (wordOfBytes hi lo) = lo := by
  have hhi := BitVec.isLt hi
  have hlo := BitVec.isLt lo
  exact BitVec.eq_of_toNat_eq (by rw [toNat_lowByte, toNat_wordOfBytes]; omega)

/-- A word is its two bytes (R46, R62). -/
@[simp] theorem wordOfBytes_high_low (w : IWord) : wordOfBytes (highByte w) (lowByte w) = w :=
  BitVec.eq_of_toNat_eq (by rw [toNat_wordOfBytes, toNat_highByte, toNat_lowByte]; omega)

end fields

/-! ## The opcode map, one lemma per opcode (R68) -/

/-- The entry of the opcode map that `decode` takes. -/
theorem decode_eq_entry {w : IWord} {n : Nibble} (h : opField w = n) : decode w = (opcodeMap[n.toNat]'n.isLt) w := by
  subst h
  rfl

section opcodes

variable {w : IWord}

theorem decode_op0 (h : opField w = 0x0) : decode w = .unknown0 := decode_eq_entry h
theorem decode_op1 (h : opField w = 0x1) : decode w = .load (rField w) (xyField w) := decode_eq_entry h
theorem decode_op2 (h : opField w = 0x2) : decode w = .loadImm (rField w) (xyField w) := decode_eq_entry h
theorem decode_op3 (h : opField w = 0x3) : decode w = .store (rField w) (xyField w) := decode_eq_entry h
theorem decode_op4 (h : opField w = 0x4) : decode w = .move (xField w) (yField w) := decode_eq_entry h
theorem decode_op5 (h : opField w = 0x5) : decode w = .add (rField w) (xField w) (yField w) := decode_eq_entry h
theorem decode_op6 (h : opField w = 0x6) : decode w = .addFloat (rField w) (xField w) (yField w) := decode_eq_entry h
theorem decode_op7 (h : opField w = 0x7) : decode w = .unknown7 := decode_eq_entry h
theorem decode_op8 (h : opField w = 0x8) : decode w = .unknown8 := decode_eq_entry h
theorem decode_op9 (h : opField w = 0x9) : decode w = .unknown9 := decode_eq_entry h
theorem decode_opA (h : opField w = 0xA) : decode w = .unknownA := decode_eq_entry h
theorem decode_opB (h : opField w = 0xB) : decode w = .jumpeq (rField w) (xyField w) := decode_eq_entry h
theorem decode_opC (h : opField w = 0xC) : decode w = .halt := decode_eq_entry h
theorem decode_opD (h : opField w = 0xD) : decode w = .unknownD := decode_eq_entry h
theorem decode_opE (h : opField w = 0xE) : decode w = .unknownE := decode_eq_entry h
theorem decode_opF (h : opField w = 0xF) : decode w = .unknownF := decode_eq_entry h

end opcodes

/-- Every opcode is one of the sixteen. -/
theorem nibble_cases (n : Nibble) : n = 0x0 ∨ n = 0x1 ∨ n = 0x2 ∨ n = 0x3 ∨ n = 0x4 ∨ n = 0x5 ∨ n = 0x6 ∨ n = 0x7 ∨
    n = 0x8 ∨ n = 0x9 ∨ n = 0xA ∨ n = 0xB ∨ n = 0xC ∨ n = 0xD ∨ n = 0xE ∨ n = 0xF := by
  revert n
  decide

/-- The opcode of a decoded instruction is the word's (R68). -/
theorem opcode_decode (w : IWord) : (decode w).opcode = opField w := by
  rcases nibble_cases (opField w) with h | h | h | h | h | h | h | h | h | h | h | h | h | h | h | h
  · rw [decode_op0 h, h]; rfl
  · rw [decode_op1 h, h]; rfl
  · rw [decode_op2 h, h]; rfl
  · rw [decode_op3 h, h]; rfl
  · rw [decode_op4 h, h]; rfl
  · rw [decode_op5 h, h]; rfl
  · rw [decode_op6 h, h]; rfl
  · rw [decode_op7 h, h]; rfl
  · rw [decode_op8 h, h]; rfl
  · rw [decode_op9 h, h]; rfl
  · rw [decode_opA h, h]; rfl
  · rw [decode_opB h, h]; rfl
  · rw [decode_opC h, h]; rfl
  · rw [decode_opD h, h]; rfl
  · rw [decode_opE h, h]; rfl
  · rw [decode_opF h, h]; rfl

/-- The opcode nibble of an encoded instruction is its opcode. -/
theorem opField_encode (i : Instr) : opField (encode i) = i.opcode := by
  cases i <;> simp [encode, Instr.opcode]

end Sys2Proof
end

