-- ==== Sys2Proof/Laws/State.lean ====
section
/-! SUPPORT. The fields of a state after each update: one lemma per field, true by definition, for simp. -/

namespace Sys2Proof.Machine

variable (s : State)

@[simp] theorem State.report_mem (e : ReportEvent) : (s.report e).mem = s.mem := rfl
@[simp] theorem State.report_regs (e : ReportEvent) : (s.report e).regs = s.regs := rfl
@[simp] theorem State.report_pc (e : ReportEvent) : (s.report e).pc = s.pc := rfl
@[simp] theorem State.report_ir (e : ReportEvent) : (s.report e).ir = s.ir := rfl
@[simp] theorem State.report_psize (e : ReportEvent) : (s.report e).psize = s.psize := rfl
@[simp] theorem State.report_phase (e : ReportEvent) : (s.report e).phase = s.phase := rfl
@[simp] theorem State.report_reports (e : ReportEvent) : (s.report e).reports = s.reports ++ [e] := rfl
@[simp] theorem State.report_draws (e : ReportEvent) : (s.report e).draws = s.draws := rfl

@[simp] theorem State.setX_mem (i : RegIdx) (c : RegCell) : (s.setX i c).mem = s.mem := rfl
@[simp] theorem State.setX_regs (i : RegIdx) (c : RegCell) : (s.setX i c).regs = s.regs.set i.toNat c i.isLt := rfl
@[simp] theorem State.setX_pc (i : RegIdx) (c : RegCell) : (s.setX i c).pc = s.pc := rfl
@[simp] theorem State.setX_ir (i : RegIdx) (c : RegCell) : (s.setX i c).ir = s.ir := rfl
@[simp] theorem State.setX_psize (i : RegIdx) (c : RegCell) : (s.setX i c).psize = s.psize := rfl
@[simp] theorem State.setX_phase (i : RegIdx) (c : RegCell) : (s.setX i c).phase = s.phase := rfl
@[simp] theorem State.setX_reports (i : RegIdx) (c : RegCell) : (s.setX i c).reports = s.reports := rfl
@[simp] theorem State.setX_draws (i : RegIdx) (c : RegCell) : (s.setX i c).draws = s.draws := rfl

@[simp] theorem State.setOpaque_mem (i : RegIdx) : (s.setOpaque i).mem = s.mem := rfl
@[simp] theorem State.setOpaque_regs (i : RegIdx) : (s.setOpaque i).regs = (s.setX i (.opaqueText (Config.freeByte s.draws))).regs := rfl
@[simp] theorem State.setOpaque_pc (i : RegIdx) : (s.setOpaque i).pc = s.pc := rfl
@[simp] theorem State.setOpaque_ir (i : RegIdx) : (s.setOpaque i).ir = s.ir := rfl
@[simp] theorem State.setOpaque_psize (i : RegIdx) : (s.setOpaque i).psize = s.psize := rfl
@[simp] theorem State.setOpaque_phase (i : RegIdx) : (s.setOpaque i).phase = s.phase := rfl
@[simp] theorem State.setOpaque_reports (i : RegIdx) : (s.setOpaque i).reports = s.reports := rfl
@[simp] theorem State.setOpaque_draws (i : RegIdx) : (s.setOpaque i).draws = s.draws + 1 := rfl

@[simp] theorem State.pcAdd2_mem : (s.pcAdd2).mem = s.mem := rfl
@[simp] theorem State.pcAdd2_regs : (s.pcAdd2).regs = s.regs := rfl
@[simp] theorem State.pcAdd2_pc : (s.pcAdd2).pc = s.pc + 2 := rfl
@[simp] theorem State.pcAdd2_ir : (s.pcAdd2).ir = s.ir := rfl
@[simp] theorem State.pcAdd2_psize : (s.pcAdd2).psize = s.psize := rfl
@[simp] theorem State.pcAdd2_phase : (s.pcAdd2).phase = s.phase := rfl
@[simp] theorem State.pcAdd2_reports : (s.pcAdd2).reports = s.reports := rfl
@[simp] theorem State.pcAdd2_draws : (s.pcAdd2).draws = s.draws := rfl

@[simp] theorem State.pcLoad_mem (a : Addr9) : (s.pcLoad a).mem = s.mem := rfl
@[simp] theorem State.pcLoad_regs (a : Addr9) : (s.pcLoad a).regs = s.regs := rfl
@[simp] theorem State.pcLoad_pc (a : Addr9) : (s.pcLoad a).pc = a := rfl
@[simp] theorem State.pcLoad_ir (a : Addr9) : (s.pcLoad a).ir = s.ir := rfl
@[simp] theorem State.pcLoad_psize (a : Addr9) : (s.pcLoad a).psize = s.psize := rfl
@[simp] theorem State.pcLoad_phase (a : Addr9) : (s.pcLoad a).phase = s.phase := rfl
@[simp] theorem State.pcLoad_reports (a : Addr9) : (s.pcLoad a).reports = s.reports := rfl
@[simp] theorem State.pcLoad_draws (a : Addr9) : (s.pcLoad a).draws = s.draws := rfl

@[simp] theorem State.raiseUnknownOpcode_mem : (s.raiseUnknownOpcode).mem = s.mem := rfl
@[simp] theorem State.raiseUnknownOpcode_regs : (s.raiseUnknownOpcode).regs = s.regs := rfl
@[simp] theorem State.raiseUnknownOpcode_pc : (s.raiseUnknownOpcode).pc = s.pc := rfl
@[simp] theorem State.raiseUnknownOpcode_ir : (s.raiseUnknownOpcode).ir = s.ir := rfl
@[simp] theorem State.raiseUnknownOpcode_psize : (s.raiseUnknownOpcode).psize = s.psize := rfl
@[simp] theorem State.raiseUnknownOpcode_phase : (s.raiseUnknownOpcode).phase = .faulted := rfl
@[simp] theorem State.raiseUnknownOpcode_reports : (s.raiseUnknownOpcode).reports = s.reports ++ [.unknownOpcode s.ir] := rfl
@[simp] theorem State.raiseUnknownOpcode_draws : (s.raiseUnknownOpcode).draws = s.draws := rfl

@[simp] theorem State.halt_mem : (s.halt).mem = s.mem := rfl
@[simp] theorem State.halt_regs : (s.halt).regs = s.regs := rfl
@[simp] theorem State.halt_pc : (s.halt).pc = s.pc + 2 := rfl
@[simp] theorem State.halt_ir : (s.halt).ir = s.ir := rfl
@[simp] theorem State.halt_psize : (s.halt).psize = s.psize := rfl
@[simp] theorem State.halt_phase : (s.halt).phase = .halted := rfl
@[simp] theorem State.halt_reports : (s.halt).reports = s.reports ++ [.haltMessage] := rfl
@[simp] theorem State.halt_draws : (s.halt).draws = s.draws := rfl

@[simp] theorem State.setBound_mem (n : Nat) : (s.setBound n).mem = s.mem := rfl
@[simp] theorem State.setBound_regs (n : Nat) : (s.setBound n).regs = s.regs := rfl
@[simp] theorem State.setBound_pc (n : Nat) : (s.setBound n).pc = s.pc := rfl
@[simp] theorem State.setBound_ir (n : Nat) : (s.setBound n).ir = s.ir := rfl
@[simp] theorem State.setBound_psize (n : Nat) : (s.setBound n).psize = BitVec.ofNat 9 (2 * n) := rfl
@[simp] theorem State.setBound_phase (n : Nat) : (s.setBound n).phase = s.phase := rfl
@[simp] theorem State.setBound_reports (n : Nat) : (s.setBound n).reports = s.reports := rfl
@[simp] theorem State.setBound_draws (n : Nat) : (s.setBound n).draws = s.draws := rfl

/-! ## Registers and bytes of memory through each update -/

@[simp] theorem State.x_setX_same (i : RegIdx) (c : RegCell) : (s.setX i c).x i = c := by
  simp [State.x, State.setX]

theorem State.x_setX_ne (i j : RegIdx) (c : RegCell) (h : j ≠ i) : (s.setX i c).x j = s.x j := by
  have hne : i.toNat ≠ j.toNat := fun e => h (BitVec.eq_of_toNat_eq e.symm)
  simp [State.x, State.setX, hne]

/-- The registers decide what a register reads. -/
theorem State.x_congr {s t : State} (h : t.regs = s.regs) (i : RegIdx) : t.x i = s.x i := by
  simp [State.x, h]

/-- The memory decides what a byte reads. -/
theorem State.byteAt_congr {s t : State} (h : t.mem = s.mem) (a : Nat) : t.byteAt a = s.byteAt a := by
  simp [State.byteAt, h]

@[simp] theorem State.x_report (e : ReportEvent) (i : RegIdx) : (s.report e).x i = s.x i := rfl
@[simp] theorem State.byteAt_report (e : ReportEvent) (k : Nat) : (s.report e).byteAt k = s.byteAt k := rfl
@[simp] theorem State.byteAt_setX (i : RegIdx) (c : RegCell) (k : Nat) : (s.setX i c).byteAt k = s.byteAt k := rfl
@[simp] theorem State.byteAt_setOpaque (i : RegIdx) (k : Nat) : (s.setOpaque i).byteAt k = s.byteAt k := rfl
@[simp] theorem State.x_pcAdd2 (i : RegIdx) : (s.pcAdd2).x i = s.x i := rfl
@[simp] theorem State.byteAt_pcAdd2 (k : Nat) : (s.pcAdd2).byteAt k = s.byteAt k := rfl
@[simp] theorem State.x_pcLoad (a : Addr9) (i : RegIdx) : (s.pcLoad a).x i = s.x i := rfl
@[simp] theorem State.byteAt_pcLoad (a : Addr9) (k : Nat) : (s.pcLoad a).byteAt k = s.byteAt k := rfl
@[simp] theorem State.x_raiseUnknownOpcode (i : RegIdx) : (s.raiseUnknownOpcode).x i = s.x i := rfl
@[simp] theorem State.byteAt_raiseUnknownOpcode (k : Nat) : (s.raiseUnknownOpcode).byteAt k = s.byteAt k := rfl
@[simp] theorem State.x_halt (i : RegIdx) : (s.halt).x i = s.x i := rfl
@[simp] theorem State.byteAt_halt (k : Nat) : (s.halt).byteAt k = s.byteAt k := rfl
@[simp] theorem State.x_setBound (n : Nat) (i : RegIdx) : (s.setBound n).x i = s.x i := rfl
@[simp] theorem State.byteAt_setBound (n : Nat) (k : Nat) : (s.setBound n).byteAt k = s.byteAt k := rfl

@[simp] theorem State.x_setOpaque_same (i : RegIdx) :
    (s.setOpaque i).x i = .opaqueText (Config.freeByte s.draws) :=
  s.x_setX_same i _

theorem State.x_setOpaque_ne (i j : RegIdx) (h : j ≠ i) : (s.setOpaque i).x j = s.x j :=
  s.x_setX_ne i j _ h

end Sys2Proof.Machine
end

