-- ==== Sys2Proof/Laws/Memory.lean ====
section
/-! SUPPORT. What a read of memory sees after a write, and the canonical form: every memory operation keeps it. The
read laws hold of every list of cells, in canonical form or not. -/

namespace Sys2Proof.Machine

@[simp] theorem Memory.read_nil (a : Nat) : Memory.read [] a = 0 := rfl

theorem Memory.read_cons (k : Nat) (b : Byte) (m : Memory) (a : Nat) :
    Memory.read ((k, b) :: m) a = if a = k then b else Memory.read m a := rfl

theorem Memory.read_erase_same (m : Memory) (a : Nat) : Memory.read (Memory.erase m a) a = 0 := by
  induction m with
  | nil => rfl
  | cons c m ih =>
    obtain ⟨k, b⟩ := c
    by_cases h : k = a
    · simpa [Memory.erase, h] using ih
    · simpa [Memory.erase, h, Memory.read_cons, Ne.symm h] using ih

theorem Memory.read_erase_ne (m : Memory) {a b : Nat} (h : b ≠ a) :
    Memory.read (Memory.erase m a) b = Memory.read m b := by
  induction m with
  | nil => rfl
  | cons c m ih =>
    obtain ⟨k, v⟩ := c
    by_cases hk : k = a
    · simpa [Memory.erase, hk, Memory.read_cons, h] using ih
    · simpa [Memory.erase, hk, Memory.read_cons] using congrArg (fun z => if b = k then v else z) ih

/-- A cell inserted where none of its address is listed. -/
theorem Memory.read_insert (m : Memory) (a : Nat) (v : Byte) (b : Nat) (hm : ∀ c ∈ m, c.1 ≠ a) :
    Memory.read (Memory.insert a v m) b = if b = a then v else Memory.read m b := by
  induction m with
  | nil => rfl
  | cons c m ih =>
    obtain ⟨k, w⟩ := c
    have hk : k ≠ a := hm _ List.mem_cons_self
    by_cases hlt : a < k
    · simp [Memory.insert, hlt, Memory.read_cons]
    · have := ih fun c hc => hm c (List.mem_cons_of_mem _ hc)
      by_cases hb : b = k
      · simp [Memory.insert, hlt, Memory.read_cons, hb, hk]
      · simp [Memory.insert, hlt, Memory.read_cons, hb, this]

theorem Memory.erase_lacks (m : Memory) (a : Nat) : ∀ c ∈ Memory.erase m a, c.1 ≠ a := by
  simp [Memory.erase]

/-- A read after a write: the byte written at its address, the old byte elsewhere. -/
theorem Memory.read_write (m : Memory) (a : Nat) (v : Byte) (b : Nat) :
    Memory.read (Memory.write m a v) b = if b = a then v else Memory.read m b := by
  unfold Memory.write
  by_cases hv : v = Config.unwrittenByte
  · by_cases hb : b = a
    · simp [hv, hb, Memory.read_erase_same]
    · simp [hv, hb, Memory.read_erase_ne m hb]
  · rw [if_neg hv, Memory.read_insert _ _ _ _ (Memory.erase_lacks m a)]
    by_cases hb : b = a
    · simp [hb]
    · simp [hb, Memory.read_erase_ne m hb]

theorem Memory.wf_nil : Memory.wf [] := by simp [Memory.wf]

theorem State.reset_mem_wf : Memory.wf State.reset.mem := Memory.wf_nil

theorem Memory.wf_erase {m : Memory} (h : Memory.wf m) (a : Nat) : Memory.wf (Memory.erase m a) :=
  ⟨h.1.filter _, fun c hc => h.2 c (List.mem_of_mem_filter hc)⟩

theorem Memory.mem_insert {m : Memory} {a : Nat} {v : Byte} {c : Host.Cell} (h : c ∈ Memory.insert a v m) :
    c = (a, v) ∨ c ∈ m := by
  induction m with
  | nil => simpa [Memory.insert] using h
  | cons d m ih =>
    by_cases hlt : a < d.1
    · simpa [Memory.insert, hlt] using h
    · rcases List.mem_cons.mp (by simpa [Memory.insert, hlt] using h) with h | h
      · exact .inr (by simp [h])
      · exact (ih h).imp_right (List.mem_cons_of_mem _)

theorem Memory.wf_insert {m : Memory} (h : Memory.wf m) {a : Nat} {v : Byte} (hm : ∀ c ∈ m, c.1 ≠ a)
    (ha : a < Config.memSize) (hv : v ≠ Config.unwrittenByte) : Memory.wf (Memory.insert a v m) := by
  refine ⟨?_, fun c hc => ?_⟩
  · have hs := h.1
    clear h
    induction m with
    | nil => simp [Memory.insert]
    | cons d m ih =>
      have hd := List.pairwise_cons.mp hs
      have hne : d.1 ≠ a := hm d List.mem_cons_self
      by_cases hlt : a < d.1
      · simp only [Memory.insert, hlt, if_true, List.pairwise_cons]
        refine ⟨fun c hc => ?_, hd⟩
        rcases List.mem_cons.mp hc with rfl | hc
        · exact hlt
        · exact hlt.trans (hd.1 c hc)
      · simp only [Memory.insert, hlt, if_false, List.pairwise_cons]
        refine ⟨fun c hc => ?_, ih (fun c hc => hm c (List.mem_cons_of_mem _ hc)) hd.2⟩
        rcases Memory.mem_insert hc with rfl | hc
        · exact Nat.lt_of_le_of_ne (Nat.le_of_not_lt hlt) hne
        · exact hd.1 c hc
  · rcases Memory.mem_insert hc with rfl | hc
    · exact ⟨ha, hv⟩
    · exact h.2 c hc

/-- A write inside the memory keeps the canonical form. -/
theorem Memory.wf_write {m : Memory} (h : Memory.wf m) {a : Nat} (ha : a < Config.memSize) (v : Byte) :
    Memory.wf (Memory.write m a v) := by
  unfold Memory.write
  split
  · exact Memory.wf_erase h a
  · exact Memory.wf_insert (Memory.wf_erase h a) (Memory.erase_lacks m a) ha ‹_›

/-- The memory contract's write keeps the canonical form at every address. -/
theorem State.memWrite_wf {s : State} (h : Memory.wf s.mem) (a : Nat) (v : Byte) : Memory.wf (s.memWrite a v).mem := by
  unfold State.memWrite
  split
  · exact Memory.wf_write h ‹_› v
  · exact h

/-! ## The access contract -/

theorem State.memRead_in {s : State} {a : Nat} (h : a < Config.memSize) : s.memRead a = (s.byteAt a, s) := by
  simp [State.memRead, State.byteAt, h]

theorem State.memRead_out {s : State} {a : Nat} (h : ¬ a < Config.memSize) :
    s.memRead a = (0, s.report (.boundsFault .mem .read a)) := by
  simp [State.memRead, h]

/-- A byte after a write in range. -/
theorem State.byteAt_memWrite {s : State} {a : Nat} (h : a < Config.memSize) (v : Byte) (b : Nat) :
    (s.memWrite a v).byteAt b = if b = a then v else s.byteAt b := by
  by_cases hb : b = a
  · subst hb
    simp [State.memWrite, State.byteAt, h, Memory.read_write]
  · simp [State.memWrite, State.byteAt, h, Memory.read_write, hb]

/-- A write in range changes the memory alone. -/
theorem State.memWrite_in {s : State} {a : Nat} (h : a < Config.memSize) (v : Byte) :
    s.memWrite a v = { s with mem := s.mem.write a v } := by
  simp [State.memWrite, h]

/-- A write out of range is a report alone. -/
theorem State.memWrite_out {s : State} {a : Nat} (h : ¬ a < Config.memSize) (v : Byte) :
    s.memWrite a v = s.report (.boundsFault .mem .write a) := by
  simp [State.memWrite, h]

/-- XY always addresses a cell (R65). -/
theorem xyAddress_lt (xy : Byte) : xyAddress xy < Config.memSize := xy.isLt

end Sys2Proof.Machine
end

