-- ==== Sys2Proof/Laws/Step.lean ====
section
/-! SUPPORT. What each shared operation and each meaning can do, said once: the fetch, reading a register as a byte,
the next states of `exec`, and the ways a step ends. -/

namespace Sys2Proof.Machine

/-! ## Fetch and the start of a step -/

theorem State.byteAt_out (s : State) {a : Nat} (h : ¬ a < Config.memSize) : s.byteAt a = 0 := by
  simp [State.byteAt, h]

/-- The memory contract's read, in one equation. -/
theorem State.memRead_eq (s : State) (a : Nat) :
    s.memRead a =
      (s.byteAt a,
        { s with reports := s.reports ++ if a < Config.memSize then [] else [.boundsFault .mem .read a] }) := by
  by_cases h : a < Config.memSize
  · simp only [State.memRead_in h, h, if_true, List.append_nil]
  · simp only [State.memRead_out h, s.byteAt_out h, h, if_false, State.report]

/-- Fetch changes `ir` and, past the end of memory, the reports (R81, R42). -/
theorem State.fetch_eq (s : State) :
    s.fetch = { s with ir := s.fetchedWord, reports := s.reports ++ s.fetchReports } := by
  simp only [State.fetch, State.memRead2, State.memRead_eq, State.fetchedWord, State.fetchReports,
    List.append_assoc]
  rfl

/-- The state execute runs in (R80). -/
theorem State.beginStep_eq (s : State) :
    s.beginStep =
      { s with ir := s.fetchedWord, phase := .executing, reports := s.reports ++ s.fetchReports } := by
  simp only [State.beginStep, State.fetch_eq]
  rfl

section beginStep

variable (s : State)

@[simp] theorem State.beginStep_mem : s.beginStep.mem = s.mem := by rw [State.beginStep_eq]
@[simp] theorem State.beginStep_regs : s.beginStep.regs = s.regs := by rw [State.beginStep_eq]
@[simp] theorem State.beginStep_pc : s.beginStep.pc = s.pc := by rw [State.beginStep_eq]
@[simp] theorem State.beginStep_ir : s.beginStep.ir = s.fetchedWord := by rw [State.beginStep_eq]
@[simp] theorem State.beginStep_psize : s.beginStep.psize = s.psize := by rw [State.beginStep_eq]
@[simp] theorem State.beginStep_phase : s.beginStep.phase = .executing := by rw [State.beginStep_eq]
@[simp] theorem State.beginStep_reports : s.beginStep.reports = s.reports ++ s.fetchReports := by
  rw [State.beginStep_eq]
@[simp] theorem State.beginStep_draws : s.beginStep.draws = s.draws := by rw [State.beginStep_eq]
@[simp] theorem State.x_beginStep (i : RegIdx) : s.beginStep.x i = s.x i := State.x_congr s.beginStep_regs i
@[simp] theorem State.byteAt_beginStep (a : Nat) : s.beginStep.byteAt a = s.byteAt a :=
  State.byteAt_congr s.beginStep_mem a

end beginStep

/-! ## Reading a register as a byte -/

theorem State.withByte_byte {s : State} {i : RegIdx} {b : Byte} (h : s.x i = .byte b) (k : Byte → Result) :
    s.withByte i k = k b := by
  simp [State.withByte, RegCell.byte?, h]

theorem State.withByte_opaque {s : State} {i : RegIdx} {b : Byte} (h : s.x i = .opaqueText b) (k : Byte → Result) :
    s.withByte i k = .refused (.opaqueOperand i) := by
  simp [State.withByte, RegCell.byte?, h]

/-- It goes on only with a byte. -/
theorem State.withByte_next {s t : State} {i : RegIdx} {k : Byte → Result} (h : s.withByte i k = .next t) :
    ∃ b, s.x i = .byte b ∧ k b = .next t := by
  cases hx : s.x i with
  | byte b => exact ⟨b, rfl, by rwa [State.withByte_byte hx] at h⟩
  | opaqueText b => rw [State.withByte_opaque hx] at h; cases h

/-! ## The meanings -/

theorem execLoad_eq (r : RegIdx) (xy : Byte) (s : State) :
    execLoad r xy s = .next (s.setX r (.byte (s.byteAt xy.toNat))) := by
  simp only [execLoad, State.memRead_in (xyAddress_lt xy)]
  rfl

theorem execStore_eq {r : RegIdx} {xy : Byte} {s : State} {b : Byte} (h : s.x r = .byte b) :
    execStore r xy s = .next (s.memWrite xy.toNat b) := by
  rw [execStore, State.withByte_byte h, xyAddress]

theorem execAdd_eq {r x y : RegIdx} {s : State} {a b : Byte} (hx : s.x x = .byte a) (hy : s.x y = .byte b) :
    execAdd r x y s = .next (s.setX r (.byte (aluAdd a b))) := by
  rw [execAdd, State.withByte_byte hx, State.withByte_byte hy]

theorem execAddFloat_eq {r x y : RegIdx} {s : State} {a b : Byte} (hx : s.x x = .byte a) (hy : s.x y = .byte b) :
    execAddFloat r x y s =
      if floatDomain a b then .next (s.setOpaque r) else .refused .nonDecimalOperand := by
  rw [execAddFloat, State.withByte_byte hx, State.withByte_byte hy]

theorem execJumpeq_eq {r : RegIdx} {xy : Byte} {s : State} {a b : Byte} (hr : s.x r = .byte a)
    (h0 : s.x 0 = .byte b) :
    execJumpeq r xy s = .next (if a = b then s.pcLoad (xyTarget xy) else s) := by
  rw [execJumpeq, State.withByte_byte hr, State.withByte_byte h0]
  simp [aluEq]

theorem exec_unknown {i : Instr} (h : i.isUnknown = true) (s : State) : exec i s = .next s.raiseUnknownOpcode := by
  cases i <;> first | rfl | cases h

/-- What `exec` makes of a state, as a relation: the whole of its next states. -/
inductive Effect : Instr → State → State → Prop where
  | load (r xy s) : Effect (.load r xy) s (s.setX r (.byte (s.byteAt xy.toNat)))
  | loadImm (r xy s) : Effect (.loadImm r xy) s (s.setX r (.byte xy))
  | store (r xy s b) (h : s.x r = .byte b) : Effect (.store r xy) s (s.memWrite xy.toNat b)
  | move (x y s) : Effect (.move x y) s (s.setX y (s.x x))
  | add (r x y s a b) (hx : s.x x = .byte a) (hy : s.x y = .byte b) :
      Effect (.add r x y) s (s.setX r (.byte (aluAdd a b)))
  | addFloat (r x y s a b) (hx : s.x x = .byte a) (hy : s.x y = .byte b) (hd : floatDomain a b = true) :
      Effect (.addFloat r x y) s (s.setOpaque r)
  | jumpTaken (r xy s b) (hr : s.x r = .byte b) (h0 : s.x 0 = .byte b) :
      Effect (.jumpeq r xy) s (s.pcLoad (xyTarget xy))
  | jumpNotTaken (r xy s a b) (hr : s.x r = .byte a) (h0 : s.x 0 = .byte b) (hne : a ≠ b) :
      Effect (.jumpeq r xy) s s
  | halt (s) : Effect .halt s s.halt
  | unknown (i s) (h : i.isUnknown = true) : Effect i s s.raiseUnknownOpcode

/-- Inversion of `exec`: a next state is the instruction's effect. -/
theorem exec_effect {i : Instr} {s t : State} (h : exec i s = .next t) : Effect i s t := by
  cases i with
  | load r xy => simp only [exec, execLoad_eq] at h; cases h; exact .load r xy s
  | loadImm r xy => simp only [exec, execLoadImm, xyImmediate] at h; cases h; exact .loadImm r xy s
  | store r xy =>
    obtain ⟨b, hb, hk⟩ := State.withByte_next h
    cases hk
    exact .store r xy s b hb
  | move x y => simp only [exec, execMove] at h; cases h; exact .move x y s
  | add r x y =>
    obtain ⟨a, ha, h⟩ := State.withByte_next h
    obtain ⟨b, hb, hk⟩ := State.withByte_next h
    cases hk
    exact .add r x y s a b ha hb
  | addFloat r x y =>
    obtain ⟨a, ha, h⟩ := State.withByte_next h
    obtain ⟨b, hb, hk⟩ := State.withByte_next h
    split at hk
    · cases hk; exact .addFloat r x y s a b ha hb ‹_›
    · cases hk
  | jumpeq r xy =>
    obtain ⟨a, ha, h⟩ := State.withByte_next h
    obtain ⟨b, hb, hk⟩ := State.withByte_next h
    simp only [aluEq, decide_eq_true_eq] at hk
    split at hk
    · subst_vars; cases hk; exact .jumpTaken r xy s _ ha hb
    · cases hk; exact .jumpNotTaken r xy s a b ha hb ‹_›
  | halt => simp only [exec, execHalt] at h; cases h; exact .halt s
  | unknown0 | unknown7 | unknown8 | unknown9 | unknownA | unknownD | unknownE | unknownF =>
    rw [exec_unknown rfl] at h; cases h; exact .unknown _ s rfl

/-- The converse: every effect is a next state of `exec`. -/
theorem effect_exec {i : Instr} {s t : State} (h : Effect i s t) : exec i s = .next t := by
  cases h with
  | load => exact execLoad_eq _ _ _
  | loadImm => rfl
  | store _ _ _ _ h => exact execStore_eq h
  | move => rfl
  | add _ _ _ _ _ _ hx hy => exact execAdd_eq hx hy
  | addFloat _ _ _ _ _ _ hx hy hd => simp [exec, execAddFloat_eq hx hy, hd]
  | jumpTaken _ _ _ _ hr h0 => simp [exec, execJumpeq_eq hr h0]
  | jumpNotTaken _ _ _ _ _ hr h0 hne => simp [exec, execJumpeq_eq hr h0, hne]
  | halt => rfl
  | unknown _ _ h => exact exec_unknown h s

/-! ### What every effect does to each part of the state -/

theorem effect_phase {i : Instr} {s u : State} (h : Effect i s u) :
    u.phase = if i = .halt then .halted else if i.isUnknown then .faulted else s.phase := by
  cases h with
  | store r xy s b hb => rw [State.memWrite_in (s := s) xy.isLt]; rfl
  | unknown i s hk => rw [hk]; cases i <;> first | rfl | cases hk
  | _ => rfl

theorem effect_reports {i : Instr} {s u : State} (h : Effect i s u) :
    u.reports = s.reports ++ execReports i s.ir := by
  cases h with
  | store r xy s b hb => rw [State.memWrite_in (s := s) xy.isLt]; simp [execReports, Instr.isUnknown]
  | unknown i s hk => cases i <;> first | rfl | cases hk
  | _ => simp [execReports, Instr.isUnknown]

/-- No instruction writes `ir` or `psize` (R22, R23). -/
theorem effect_ir_psize {i : Instr} {s u : State} (h : Effect i s u) : u.ir = s.ir ∧ u.psize = s.psize := by
  cases h with
  | store r xy s b hb => rw [State.memWrite_in (s := s) xy.isLt]; exact ⟨rfl, rfl⟩
  | _ => exact ⟨rfl, rfl⟩

/-- Every instruction keeps the canonical form of memory. -/
theorem effect_mem_wf {i : Instr} {s u : State} (h : Effect i s u) (hm : Memory.wf s.mem) : Memory.wf u.mem := by
  cases h with
  | store r xy s b hb => exact State.memWrite_wf hm _ _
  | _ => exact hm

/-- Only a JUMPEQ or a HALT writes `pc` inside execute (R19, R27). -/
theorem effect_pc {i : Instr} {s u : State} (h : Effect i s u) (hj : ∀ r xy, i ≠ .jumpeq r xy) (hh : i ≠ .halt) :
    u.pc = s.pc := by
  cases h with
  | store r xy s b hb => rw [State.memWrite_in (s := s) xy.isLt]
  | jumpTaken r xy => exact absurd rfl (hj r xy)
  | halt => exact absurd rfl hh
  | _ => rfl

/-- A register changes only by an instruction that names it as its destination (R15). -/
theorem effect_x {j : Instr} {s u : State} (h : Effect j s u) (i : RegIdx) (hne : u.x i ≠ s.x i) :
    (∃ xy, j = .load i xy) ∨ (∃ xy, j = .loadImm i xy) ∨ (∃ x, j = .move x i) ∨ (∃ x y, j = .add i x y) ∨
      (∃ x y, j = .addFloat i x y) := by
  have key : ∀ r c, (s.setX r c).x i ≠ s.x i → i = r := fun r c hc =>
    Classical.byContradiction fun hn => hc (s.x_setX_ne r i c hn)
  cases h with
  | load => cases key _ _ hne; exact .inl ⟨_, rfl⟩
  | loadImm => cases key _ _ hne; exact .inr (.inl ⟨_, rfl⟩)
  | move => cases key _ _ hne; exact .inr (.inr (.inl ⟨_, rfl⟩))
  | add => cases key _ _ hne; exact .inr (.inr (.inr (.inl ⟨_, _, rfl⟩)))
  | addFloat => cases key _ _ hne; exact .inr (.inr (.inr (.inr ⟨_, _, rfl⟩)))
  | store r xy s b hb => rw [State.memWrite_in (s := s) xy.isLt] at hne; exact absurd rfl hne
  | _ => exact absurd rfl hne

/-- A byte of memory changes only by a STORE to its address (R39). -/
theorem effect_byteAt {j : Instr} {s u : State} (h : Effect j s u) (a : Nat) (hne : u.byteAt a ≠ s.byteAt a) :
    ∃ r xy, j = .store r xy ∧ xy.toNat = a := by
  cases h with
  | store r xy s b hb =>
    rw [State.byteAt_memWrite (s := s) xy.isLt] at hne
    exact ⟨r, xy, rfl, Classical.byContradiction fun hn => hne (if_neg (Ne.symm hn))⟩
  | _ => exact absurd rfl hne

/-- `exec` never stops with a fault. -/
theorem exec_ne_fault (i : Instr) (s : State) (f : Fault) : exec i s ≠ .fault f := nomatch f

/-! ## The end of a step -/

theorem State.endStep_continues {s : State} (h : s.phase = .executing) :
    s.endStep = { s with pc := s.pc + 2, phase := .fetching } := by
  simp [State.endStep, State.continues, h, State.pcAdd2]

theorem State.endStep_stops {s : State} (h : s.phase ≠ .executing) : s.endStep = s := by
  simp [State.endStep, State.continues, h]

section endStep

variable (s : State)

@[simp] theorem State.endStep_mem : s.endStep.mem = s.mem := by unfold State.endStep; split <;> rfl
@[simp] theorem State.endStep_regs : s.endStep.regs = s.regs := by unfold State.endStep; split <;> rfl
@[simp] theorem State.endStep_ir : s.endStep.ir = s.ir := by unfold State.endStep; split <;> rfl
@[simp] theorem State.endStep_psize : s.endStep.psize = s.psize := by unfold State.endStep; split <;> rfl
@[simp] theorem State.endStep_reports : s.endStep.reports = s.reports := by unfold State.endStep; split <;> rfl
@[simp] theorem State.endStep_draws : s.endStep.draws = s.draws := by unfold State.endStep; split <;> rfl
@[simp] theorem State.x_endStep (i : RegIdx) : s.endStep.x i = s.x i := State.x_congr s.endStep_regs i
@[simp] theorem State.byteAt_endStep (a : Nat) : s.endStep.byteAt a = s.byteAt a :=
  State.byteAt_congr s.endStep_mem a

theorem State.endStep_phase_ne : s.endStep.phase ≠ .executing := by
  by_cases h : s.phase = .executing
  · simp [State.endStep_continues h]
  · rwa [State.endStep_stops h]

end endStep

/-! ## Steps -/

theorem mapNext_next {α β : Type} {f : α → β} {o : Host.Outcome α Fault Refusal} {b : β}
    (h : mapNext f o = .next b) : ∃ a, o = .next a ∧ f a = b := by
  cases o with
  | next a => exact ⟨a, rfl, by simpa [mapNext] using h⟩
  | fault r => cases h
  | refused r => cases h

theorem State.guard_iff (s : State) : s.guard = true ↔ s.pc.toNat < s.psize.toNat := by
  simp [State.guard, BitVec.lt_def]

/-- A step with the guard open executes the fetched instruction (R80). -/
theorem step_of_guard {s : State} (h : s.guard = true) :
    step s = mapNext State.endStep (exec s.nextInstr s.beginStep) := by
  simp only [step, h, if_true, State.beginStep_ir, State.nextInstr]

/-- A step with the guard closed does nothing (R86). -/
theorem step_of_not_guard {s : State} (h : s.guard = false) : step s = .next s := by
  simp [step, h]

/-- Inversion of `step`: nothing with the guard closed, else the instruction's effect and the end of the step. -/
theorem step_cases {s t : State} (h : step s = .next t) :
    (s.guard = false ∧ t = s) ∨
      (s.guard = true ∧ ∃ u, Effect s.nextInstr s.beginStep u ∧ t = u.endStep) := by
  cases hg : s.guard with
  | false => rw [step_of_not_guard hg] at h; cases h; exact .inl ⟨rfl, rfl⟩
  | true =>
    rw [step_of_guard hg] at h
    obtain ⟨u, hu, rfl⟩ := mapNext_next h
    exact .inr ⟨rfl, u, exec_effect hu, rfl⟩

/-- A step with the guard open and an effect. -/
theorem step_of_effect {s u : State} (hg : s.guard = true) (h : Effect s.nextInstr s.beginStep u) :
    step s = .next u.endStep := by
  rw [step_of_guard hg, effect_exec h]
  rfl

end Sys2Proof.Machine
end

