-- ==== Sys2Proof/Laws/Commands.lean ====
section
/-! SUPPORT. What the host commands do to memory: one word, an image of words, a list of good tokens; and the words
that tokens stand for. -/

namespace Sys2Proof.Machine

/-! ## One word -/

/-- A byte after a word is written inside the memory (R62). -/
theorem State.byteAt_writeWord {s : State} {a : Nat} (h : a + 1 < Config.memSize) (w : IWord) (b : Nat) :
    (s.writeWord a w).byteAt b =
      if b = a then highByte w else if b = a + 1 then lowByte w else s.byteAt b := by
  rw [State.writeWord, State.byteAt_memWrite h, State.byteAt_memWrite (Nat.lt_of_succ_lt h)]
  by_cases e : b = a
  · subst e; simp
  · simp [e]

/-- A word written inside the memory changes the memory alone. -/
theorem State.writeWord_rest {s : State} {a : Nat} (h : a + 1 < Config.memSize) (w : IWord) :
    ∃ m, s.writeWord a w = { s with mem := m } := by
  rw [State.writeWord, State.memWrite_in h, State.memWrite_in (Nat.lt_of_succ_lt h)]
  exact ⟨_, rfl⟩

theorem State.writeWord_wf {s : State} (h : Memory.wf s.mem) (a : Nat) (w : IWord) :
    Memory.wf (s.writeWord a w).mem :=
  State.memWrite_wf (State.memWrite_wf h _ _) _ _

/-! ## A placed word is fetched next -/

theorem State.placeAddr_lt (s : State) : s.placeAddr.toNat + 1 < Config.memSize := by
  unfold State.placeAddr
  split
  · assumption
  · decide

/-- The next step of a state with a placed word executes that word (log entry 8). -/
theorem State.placeFetchWord_fetches (s : State) (w : IWord) :
    (s.placeFetchWord w).guard = true ∧ (s.placeFetchWord w).fetchedWord = w := by
  have ha : s.placeAddr.toNat + 1 < 256 := s.placeAddr_lt
  refine ⟨?_, ?_⟩
  · rw [State.guard_iff]
    show s.placeAddr.toNat < (if s.placeAddr < s.psize then s.psize else boundAbove s.placeAddr.toNat).toNat
    split
    · exact BitVec.lt_def.mp ‹_›
    · simp only [boundAbove, BitVec.toNat_ofNat]
      omega
  · have hb : ∀ b, (s.placeFetchWord w).byteAt b = (s.writeWord s.placeAddr.toNat w).byteAt b :=
      State.byteAt_congr rfl
    have hp : (s.placeFetchWord w).pc = s.placeAddr := rfl
    rw [State.fetchedWord, hp, hb, hb, State.byteAt_writeWord ha, State.byteAt_writeWord ha]
    simp

/-! ## An image of words (R193) -/

theorem State.writeWords_rest {words : List IWord} :
    ∀ {s : State} {a : Nat}, a + 2 * words.length ≤ Config.memSize → ∃ m, s.writeWords a words = { s with mem := m } := by
  induction words with
  | nil => exact fun {s} _ _ => ⟨s.mem, rfl⟩
  | cons w ws ih =>
    intro s a h
    simp only [List.length_cons] at h
    obtain ⟨m, hm⟩ := State.writeWord_rest (s := s) (a := a) (by omega) w
    obtain ⟨m', hm'⟩ := ih (s := s.writeWord a w) (a := a + 2) (by omega)
    exact ⟨m', by rw [State.writeWords, hm', hm]⟩

/-- A byte outside the image is as before. -/
theorem State.byteAt_writeWords_out {words : List IWord} :
    ∀ {s : State} {a b : Nat}, a + 2 * words.length ≤ Config.memSize → b < a ∨ a + 2 * words.length ≤ b →
      (s.writeWords a words).byteAt b = s.byteAt b := by
  induction words with
  | nil => exact fun _ _ => rfl
  | cons w ws ih =>
    intro s a b h hb
    simp only [List.length_cons] at h hb
    rw [State.writeWords, ih (by omega) (by omega), State.byteAt_writeWord (by omega), if_neg (by omega),
      if_neg (by omega)]

/-- Word `k` of the image stands at its two bytes. -/
theorem State.byteAt_writeWords_in {words : List IWord} :
    ∀ {s : State} {a k : Nat}, a + 2 * words.length ≤ Config.memSize → (h : k < words.length) →
      (s.writeWords a words).byteAt (a + 2 * k) = highByte words[k] ∧
        (s.writeWords a words).byteAt (a + 2 * k + 1) = lowByte words[k] := by
  induction words with
  | nil => exact fun _ h => absurd h (Nat.not_lt_zero _)
  | cons w ws ih =>
    intro s a k h hk
    simp only [List.length_cons] at h hk
    cases k with
    | zero =>
      rw [State.writeWords, State.byteAt_writeWords_out (by omega) (by omega),
        State.byteAt_writeWords_out (by omega) (by omega), State.byteAt_writeWord (by omega),
        State.byteAt_writeWord (by omega)]
      simp
    | succ k =>
      have := ih (s := s.writeWord a w) (a := a + 2) (k := k) (by omega) (by omega)
      rw [State.writeWords, show a + 2 * (k + 1) = a + 2 + 2 * k by omega]
      simpa using this

theorem State.writeWords_wf {words : List IWord} :
    ∀ {s : State} {a : Nat}, Memory.wf s.mem → Memory.wf (s.writeWords a words).mem := by
  induction words with
  | nil => exact fun h => h
  | cons w ws ih => exact fun h => ih (State.writeWord_wf h _ _)

/-! ## Tokens (R73) -/

/-- A hexadecimal digit has a value, and nothing else has. -/
theorem hexDigitValue_isSome (c : Char) : (hexDigitValue c).isSome = isHexChar c := by
  unfold hexDigitValue isHexChar
  split
  · simp [*]
  · split
    · simp [*]
    · split <;> simp [*]

/-- A token of four hexadecimal digits stands for a word. -/
theorem tokenWord_of_hexadecimal {g : List Char} (h1 : tokenWellFormed g = true) (h2 : tokenHexadecimal g = true) :
    ∃ w, tokenWord g = some w := by
  simp only [tokenWellFormed, decide_eq_true_eq] at h1
  match g, h1 with
  | [a, b, c, d], _ =>
    simp only [tokenHexadecimal, List.all_cons, List.all_nil, Bool.and_true, Bool.and_eq_true,
      ← hexDigitValue_isSome, Option.isSome_iff_exists] at h2
    obtain ⟨⟨_, e1⟩, ⟨_, e2⟩, ⟨_, e3⟩, ⟨_, e4⟩⟩ := h2
    exact ⟨_, by simp only [tokenWord, List.map, e1, e2, e3, e4]; rfl⟩

/-- A token that stands for a word is hexadecimal. -/
theorem tokenHexadecimal_of_word {g : List Char} {w : IWord} (hw : tokenWord g = some w) :
    tokenHexadecimal g = true := by
  unfold tokenWord at hw
  split at hw
  · rename_i heq
    have : ∀ c ∈ g, (hexDigitValue c).isSome = true := by
      intro c hc
      have := heq ▸ List.mem_map_of_mem (f := hexDigitValue) hc
      simp only [List.mem_cons, List.not_mem_nil, or_false] at this
      rcases this with e | e | e | e <;> rw [e] <;> rfl
    simpa only [tokenHexadecimal, List.all_eq_true, ← hexDigitValue_isSome] using this
  · cases hw

/-- Good tokens load as the words they stand for, and the load goes on with the rest (R194). -/
theorem State.loadTokens_append {good : List (List Char)} :
    ∀ {s : State} {k : Nat} {ws : List IWord} (rest : List (List Char)), k + good.length ≤ Config.maxImageWords →
      (∀ g ∈ good, tokenWellFormed g = true ∧ tokenHexadecimal g = true) → good.map tokenWord = ws.map some →
      s.loadTokens k (good ++ rest) = (s.writeWords (2 * k) ws).loadTokens (k + good.length) rest := by
  induction good with
  | nil =>
    intro s k ws rest _ _ hw
    cases ws with
    | nil => rfl
    | cons _ _ => simp at hw
  | cons g gs ih =>
    intro s k ws rest hk hg hw
    cases ws with
    | nil => simp at hw
    | cons w ws =>
      simp only [List.map_cons, List.cons.injEq] at hw
      simp only [List.length_cons] at hk
      have hgood := hg g List.mem_cons_self
      have hlt : k < Config.maxImageWords := by omega
      rw [List.cons_append, State.loadTokens, if_pos hgood.1, if_pos hgood.2, hw.1]
      simp only [hlt, if_true, Config.loadBase, Nat.zero_add]
      rw [ih rest (by omega) (fun g h => hg g (List.mem_cons_of_mem _ h)) hw.2, State.writeWords,
        List.length_cons, show k + 1 + gs.length = k + (gs.length + 1) by omega]
      rfl

end Sys2Proof.Machine
end

