-- ==== Sys2Proof/Laws/PerInstr.lean ====
section
/-! SUPPORT. One law per instruction: its encoded word matches its row of the opcode table, whose mask is 0xF000 and
whose match is the opcode in bits 15:12 (R68), and a word that matches a row decodes to that row's opcode. -/

namespace Sys2Proof.Laws

/-- The word, under the table's mask 0xF000, is the row's match; a word with the same bits 15:12 decodes to the same
row. -/
def MatchesTable.Statement (i : Instr) : Prop :=
  (encode i).toNat / 4096 * 4096 = i.opcode.toNat * 4096 ∧
    ∀ w : IWord, w.toNat / 4096 = i.opcode.toNat → (decode w).opcode = i.opcode

/-- It holds of every instruction: the opcode of the encoded and of the decoded word. -/
theorem MatchesTable.of_opcode (i : Instr) : MatchesTable.Statement i := by
  refine ⟨?_, fun w h => ?_⟩
  · rw [← toNat_opField, opField_encode]
  · rw [opcode_decode]
    exact BitVec.eq_of_toNat_eq ((toNat_opField w).trans h)

theorem MatchesTable.unknown0 : MatchesTable.Statement .unknown0 := MatchesTable.of_opcode _
theorem MatchesTable.load (r : RegIdx) (xy : Byte) : MatchesTable.Statement (.load r xy) := MatchesTable.of_opcode _
theorem MatchesTable.loadImm (r : RegIdx) (xy : Byte) : MatchesTable.Statement (.loadImm r xy) := MatchesTable.of_opcode _
theorem MatchesTable.store (r : RegIdx) (xy : Byte) : MatchesTable.Statement (.store r xy) := MatchesTable.of_opcode _
theorem MatchesTable.move (x y : RegIdx) : MatchesTable.Statement (.move x y) := MatchesTable.of_opcode _
theorem MatchesTable.add (r x y : RegIdx) : MatchesTable.Statement (.add r x y) := MatchesTable.of_opcode _
theorem MatchesTable.addFloat (r x y : RegIdx) : MatchesTable.Statement (.addFloat r x y) := MatchesTable.of_opcode _
theorem MatchesTable.unknown7 : MatchesTable.Statement .unknown7 := MatchesTable.of_opcode _
theorem MatchesTable.unknown8 : MatchesTable.Statement .unknown8 := MatchesTable.of_opcode _
theorem MatchesTable.unknown9 : MatchesTable.Statement .unknown9 := MatchesTable.of_opcode _
theorem MatchesTable.unknownA : MatchesTable.Statement .unknownA := MatchesTable.of_opcode _
theorem MatchesTable.jumpeq (r : RegIdx) (xy : Byte) : MatchesTable.Statement (.jumpeq r xy) := MatchesTable.of_opcode _
theorem MatchesTable.halt : MatchesTable.Statement .halt := MatchesTable.of_opcode _
theorem MatchesTable.unknownD : MatchesTable.Statement .unknownD := MatchesTable.of_opcode _
theorem MatchesTable.unknownE : MatchesTable.Statement .unknownE := MatchesTable.of_opcode _
theorem MatchesTable.unknownF : MatchesTable.Statement .unknownF := MatchesTable.of_opcode _

end Sys2Proof.Laws
end

