-- ==== Sys2Proof/Tests/Slice0.lean ====
section
/-! SUPPORT. The model's own tests: decoding of words written out from R68, the checks of WellFormed, one step per
case of 95_test_vectors.md, and for every obligation with hypotheses a state and operands that meet them. -/

open Sys2Proof Sys2Proof.Machine

namespace Sys2Proof.Tests

/-! ## Helpers -/

/-- A next state with a property. -/
def nextIs {α : Type} (o : Host.Outcome α Fault Refusal) (p : α → Bool) : Bool :=
  match o with
  | .next t => p t
  | .fault _ => false
  | .refused _ => false

theorem exists_of_nextIs {α : Type} {o : Host.Outcome α Fault Refusal} {p : α → Bool} (h : nextIs o p = true) :
    ∃ t, o = .next t ∧ p t = true := by
  cases o with
  | next t => exact ⟨t, rfl, h⟩
  | fault f => cases f
  | refused q => cases h

/-- A refusal, if that is the outcome. -/
def refusal {α : Type} (o : Host.Outcome α Fault Refusal) : Option Refusal :=
  match o with
  | .next _ => none
  | .fault _ => none
  | .refused q => some q

/-- The reset state with an image loaded (R193). -/
def image (words : List IWord) : State := (State.reset.writeWords 0 words).setBound words.length

/-- The image `words` with `pc` at an address. -/
def startAt (pc : Addr9) (words : List IWord) : State := { image words with pc := pc }

/-- Register `r` set to a byte. -/
def withReg (r : RegIdx) (b : Byte) (s : State) : State := s.setX r (.byte b)

/-- Register `r` set to an `Opaque` cell with the given bits. -/
def withOpaque (r : RegIdx) (bits : Byte) (s : State) : State := s.setX r (.opaqueText bits)

/-- A full memory whose last cell is `hi`, with `pc` there and `psize` 256 (95_test_vectors.md 2.2). -/
def atEnd (hi : Byte) : State := { (State.reset.memWrite 255 hi) with pc := 255, psize := 256 }

/-! ## Decoding: one word per row of R68, written out from its pattern -/

theorem test_decode_unknown0 : decode 0b0000_0000_0000_0000 = .unknown0 := by decide
theorem test_decode_load : decode 0b0001_0010_1000_0000 = .load 2 0x80 := by decide
theorem test_decode_loadImm : decode 0b0010_0001_1010_0011 = .loadImm 1 0xA3 := by decide
theorem test_decode_store : decode 0b0011_0001_1000_0000 = .store 1 0x80 := by decide
theorem test_decode_move : decode 0b0100_1111_0010_0011 = .move 2 3 := by decide
theorem test_decode_add : decode 0b0101_0010_0000_0001 = .add 2 0 1 := by decide
theorem test_decode_addFloat : decode 0b0110_0011_0001_0010 = .addFloat 3 1 2 := by decide
theorem test_decode_unknown7 : decode 0b0111_0001_0010_0011 = .unknown7 := by decide
theorem test_decode_unknown8 : decode 0b1000_0000_0000_0000 = .unknown8 := by decide
theorem test_decode_unknown9 : decode 0b1001_0000_0000_0000 = .unknown9 := by decide
theorem test_decode_unknownA : decode 0b1010_0000_0000_0000 = .unknownA := by decide
theorem test_decode_jumpeq : decode 0b1011_0001_0000_1000 = .jumpeq 1 0x08 := by decide
theorem test_decode_halt : decode 0b1100_1010_1011_1100 = .halt := by decide
theorem test_decode_unknownD : decode 0b1101_0000_0000_0000 = .unknownD := by decide
theorem test_decode_unknownE : decode 0b1110_0000_0000_0000 = .unknownE := by decide
theorem test_decode_unknownF : decode 0b1111_1111_1111_1111 = .unknownF := by decide

/-- R62: the opcode byte lies at the lower address; the table word numbers bit 0 at the low end. -/
theorem test_decode_bytes :
    decodeBytes [0x52, 0x01, 0xC0] = .ok (.add 2 0 1, [0xC0]) ∧ decodeTableWord 16 0x5201 = some (.add 2 0 1) := by
  decide

theorem test_decode_truncated : decodeBytes [0x52] = .error .truncated := by decide

/-- 95_test_vectors.md 2.1, the other way: canonical words. -/
theorem test_encode : encode (.move 2 3) = 0x4023 ∧ encode .halt = 0xC000 ∧ encode (.jumpeq 1 8) = 0xB108 := by
  decide

/-! ## The checks refuse an ill-formed term -/

theorem test_image_of_129_words_refused : imageWellFormed (List.replicate 129 0) = false := by
  simp [imageWellFormed]
theorem test_token_of_3_characters_refused : tokenWellFormed ['2', '1', '0'] = false := by decide
theorem test_token_with_G_refused : tokenHexadecimal ['2', '1', 'G', '3'] = false := by decide

/-- R73, V11: `21A3`, in either letter case. -/
theorem test_token_value :
    tokenWord ['2', '1', 'A', '3'] = some 0x21A3 ∧ tokenWord ['2', '1', 'a', '3'] = some 0x21A3 := by decide

/-! ## One step per case (95_test_vectors.md part 2) -/

/-- 2.3: `1280` with MEM[80] = 2A. -/
theorem test_load : nextIs (step ((image [0x1280]).memWrite 0x80 0x2A))
    (fun t => t.x 2 = .byte 0x2A ∧ t.pc = 2 ∧ t.phase = .fetching) = true := by decide

/-- 2.3: `1412` clears the tag of x[4]. -/
theorem test_load_over_opaque : nextIs (step ((withOpaque 4 0 (image [0x1412])).memWrite 0x12 0x9C))
    (fun t => t.x 4 = .byte 0x9C) = true := by decide

/-- V3 and V4. -/
theorem test_loadImm_0F : nextIs (step (image [0x2A0F])) (fun t => t.x 0xA = .byte 0x0F ∧ t.ir = 0x2A0F) = true := by
  decide
theorem test_loadImm_10 : nextIs (step (image [0x2A10])) (fun t => t.x 0xA = .byte 0x10) = true := by decide

/-- 2.3: `3180`. -/
theorem test_store : nextIs (step (withReg 1 0x2A (image [0x3180])))
    (fun t => t.byteAt 0x80 = 0x2A ∧ t.x 1 = .byte 0x2A ∧ t.pc = 2) = true := by decide

/-- 2.3: `3A02` at 2 overwrites its own first byte and is not affected. -/
theorem test_store_own_byte : nextIs (step (withReg 0xA 0xC0 (startAt 2 [0x0000, 0x3A02])))
    (fun t => t.byteAt 2 = 0xC0 ∧ t.byteAt 3 = 0x02 ∧ t.pc = 4) = true := by decide

/-- 2.3: `4F0F`, the R field ignored. -/
theorem test_move : nextIs (step (withReg 0 0x12 (image [0x4F0F])))
    (fun t => t.x 0xF = .byte 0x12 ∧ t.x 0 = .byte 0x12) = true := by decide

/-- 2.3: `4034` copies the tag and the bits. -/
theorem test_move_opaque : nextIs (step (withOpaque 3 0x5A (withReg 4 0x11 (image [0x4034]))))
    (fun t => t.x 4 = .opaqueText 0x5A ∧ t.x 3 = .opaqueText 0x5A) = true := by decide

/-- 2.4: the rows around the threshold and at the ends. -/
theorem test_aluAdd : aluAdd 0x03 0x04 = 0x07 ∧ aluAdd 0x07 0x08 = 0x0F ∧ aluAdd 0x0F 0x01 = 0x00 ∧
    aluAdd 0x09 0x08 = 0x01 ∧ aluAdd 0x1F 0x00 = 0x0F ∧ aluAdd 0xFE 0x11 = 0x0F ∧ aluAdd 0xFF 0xFF = 0x0E := by decide

/-- 2.4: `5111`, the destination both sources. -/
theorem test_add_aliased : nextIs (step (withReg 1 0x09 (image [0x5111]))) (fun t => t.x 1 = .byte 0x02) = true := by
  decide

/-- 2.5: `6312`, the register becomes `Opaque`, sources unchanged. -/
theorem test_addFloat : nextIs (step (withReg 1 0x05 (withReg 2 0x07 (image [0x6312]))))
    (fun t => (t.x 3).byte? = none ∧ t.x 1 = .byte 0x05 ∧ t.x 2 = .byte 0x07 ∧ t.pc = 2) = true := by decide

/-- 2.5: `6312` with x[1] = 0A is refused (U3). -/
theorem test_addFloat_hex_letter : refusal (step (withReg 1 0x0A (withReg 2 0x01 (image [0x6312])))) =
    some .nonDecimalOperand := by decide

/-- 2.6: `B108` at 4, taken: `pc` = 0A; and `B1FF`, taken: `pc` = 257. -/
theorem test_jumpeq_taken :
    nextIs (step (withReg 0 5 (withReg 1 5 (startAt 4 [0, 0, 0xB108])))) (fun t => t.pc = 0x0A) = true ∧
    nextIs (step (startAt 4 [0, 0, 0xB1FF])) (fun t => t.pc = 257) = true := by decide

/-- 2.6: `B210` at 4 with x[0] = 10 and x[2] = 00, not taken. -/
theorem test_jumpeq_not_taken : nextIs (step (withReg 0 0x10 (startAt 4 [0, 0, 0xB210])))
    (fun t => t.pc = 6 ∧ t.phase = .fetching) = true := by decide

/-- 2.6: `CFFF` at 6. -/
theorem test_halt : nextIs (startAt 6 [0, 0, 0, 0xCFFF]).hostStep
    (fun r => r.1 = .halted ∧ r.2.pc = 8 ∧ r.2.phase = .halted ∧ r.2.reports = [.haltMessage]) = true := by decide

/-- 2.6: `D000` at 6, and the step after it. -/
theorem test_unknown : nextIs (startAt 6 [0, 0, 0, 0xD000]).hostStep
    (fun r => r.1 = .faulted ∧ r.2.pc = 6 ∧ r.2.phase = .faulted ∧
      nextIs (step r.2) (fun t => t.reports = [.unknownOpcode 0xD000, .unknownOpcode 0xD000] ∧ t.pc = 6)) = true := by
  decide

/-- 2.2: odd `pc`, big-endian. -/
theorem test_fetch_odd : (startAt 5 [0, 0, 0x0021, 0x07C0]).fetch.ir = 0x2107 := by decide

/-- 2.2: the fetch at `pc` = 255 of 2F, C0 and 00. -/
theorem test_fetch_past_end :
    nextIs (step (atEnd 0x2F)) (fun t => t.ir = 0x2F00 ∧ t.x 0xF = .byte 0 ∧ t.pc = 257 ∧
      t.reports = [.boundsFault .mem .read 256]) = true ∧
    nextIs (step (atEnd 0xC0)) (fun t => t.pc = 257 ∧ t.phase = .halted ∧
      t.reports = [.boundsFault .mem .read 256, .haltMessage]) = true ∧
    nextIs (step (atEnd 0x00)) (fun t => t.pc = 255 ∧ t.phase = .faulted ∧
      t.reports = [.boundsFault .mem .read 256, .unknownOpcode 0]) = true := by decide

/-- 2.2: the guard passes at `psize - 1` and the second byte lies outside the image (R89). -/
theorem test_fetch_outside_image : ((startAt 3 [0, 0x0040]).memWrite 4 0x12).guard = true ∧
    ((startAt 3 [0, 0x0040]).memWrite 4 0x12).fetch.ir = 0x4012 := by decide

/-- 2.7: `load([2005, C000])` after reset. -/
theorem test_load_image : nextIs (State.reset.hostLoad [0x2005, 0xC000])
    (fun r => r.1 = .success ∧ r.2.mem = [(0, 0x20), (1, 0x05), (2, 0xC0)] ∧ r.2.psize = 4 ∧ r.2.pc = 0) = true := by
  decide

/-- 2.7, V8: a text load of `2005`, `210`, `C000` after reset. -/
theorem test_load_malformed_token :
    nextIs (State.reset.hostLoadText [['2', '0', '0', '5'], ['2', '1', '0'], ['C', '0', '0', '0']])
      (fun r => r.1 = .failure ∧ r.2.mem = [(0, 0x20), (1, 0x05)] ∧ r.2.psize = 0 ∧
        r.2.reports = [.loadFault 1] ∧ nextIs r.2.hostStep (fun q => q.1 = .ranOff)) = true := by decide

/-- A text load of `21G3` is refused (U7). -/
theorem test_load_non_hex_token : refusal (State.reset.hostLoadText [['2', '1', 'G', '3']]) = some .nonHexToken := by
  decide

/-- V7 (P1 of part 3), four instructions under `run`, and the address `status` shows. -/
theorem test_run_source_example : nextIs ((image [0x2005, 0x2103, 0x5201, 0xC000]).hostRun 5)
    (fun r => r.1 = some .halted ∧ r.2.x 0 = .byte 5 ∧ r.2.x 1 = .byte 3 ∧ r.2.x 2 = .byte 8 ∧
      r.2.hostStatus.shownPc = 6) = true := by decide

/-- A word placed where the next step fetches: at `pc`, and at 0 when `pc` has no room for it. -/
theorem test_withFetchWord :
    nextIs (step (State.reset.withFetchWord 16 0x21A3)) (fun t => t.x 1 = .byte 0xA3 ∧ t.psize = 2) = true ∧
    nextIs (step ((startAt 255 []).withFetchWord 16 0x21A3)) (fun t => t.x 1 = .byte 0xA3 ∧ t.pc = 2) = true := by decide

/-! ## Witnesses: the hypotheses of every obligation are met together -/

theorem witness_InRangeReadReturnsTheCell : (0 : Nat) < 256 ∧ 255 < 256 := by decide
theorem witness_OutOfRangeReadReportsAndReturnsZero : 256 ≤ (256 : Nat) := by decide
theorem witness_WriteThenReadReturnsTheByte : (0 : Nat) < 256 ∧ 255 < 256 := by decide
theorem witness_OutOfRangeWriteReportsAndWritesNothing : 256 ≤ (256 : Nat) := by decide
theorem witness_RegisterBankContract : 16 ≤ (16 : Nat) := by decide

theorem witness_OpcodeMapIsTheTable : ∀ n : Nibble, opField (encodeNONE n) = n := by decide

theorem witness_EncodeOfDecodeIsTheCanonicalWord :
    opField 0x1280 ∈ ([0x1, 0x2, 0x3, 0x5, 0x6, 0xB] : List Nibble) ∧ opField 0x4F23 = 0x4 ∧
      opField 0xFFFF ∈ ([0x0, 0x7, 0x8, 0x9, 0xA, 0xC, 0xD, 0xE, 0xF] : List Nibble) := by decide

theorem witness_FetchReadsTwoCellsBigEndian :
    (startAt 254 []).pc.toNat < 255 ∧ (atEnd 0x2F).pc.toNat = 255 ∧ (atEnd 0x2F).guard = true ∧
      (image [0x2005]).pc.toNat < 255 ∧ (image [0x2005]).guard = true := by decide

theorem witness_StepRunsTheDecodedInstruction : (image [0x2005]).guard = true ∧
    decodeBytes [(image [0x2005]).byteAt 0, (image [0x2005]).byteAt 1] = .ok (.loadImm 0 5, []) ∧
    (atEnd 0xC0).guard = true ∧ decodeBytes [(atEnd 0xC0).byteAt 255, (atEnd 0xC0).byteAt 256] = .ok (.halt, []) := by
  decide

theorem witness_RanOffChangesNothing : (startAt 2 [0x2005]).psize.toNat ≤ (startAt 2 [0x2005]).pc.toNat := by decide

theorem witness_StepCommandNamesTheOutcome :
    (image [0x2005]).guard = true ∧ (image [0xC000]).guard = true ∧ (image [0xD000]).guard = true ∧
    (∃ t, (image [0x2005]).hostStep = .next t ∧ decide (t.1 = .continued) = true) ∧
    (∃ t, (image [0xC000]).hostStep = .next t ∧ decide (t.1 = .halted) = true) ∧
    (∃ t, (image [0xD000]).hostStep = .next t ∧ decide (t.1 = .faulted) = true) :=
  ⟨by decide, by decide, by decide, exists_of_nextIs (by decide), exists_of_nextIs (by decide),
    exists_of_nextIs (by decide)⟩

/-- A step that answers a next state with an open guard, of a JUMPEQ, a HALT, an unknown
opcode and every other instruction: the witness of PhaseAfterEachInstruction, ReportsOfAStepInOrder,
StepLeavesBoundAndHoldsFetchedWord, PcParityChangesOnlyByATakenJump, ReportStreamIsNeverRead and
StepIsSafeExactlyOnDefinedOperands, and with the theorems below of PcAfterEachInstruction and DataTransferFamilyLaw. -/
theorem witness_executed_steps :
    ∀ w ∈ ([0xB108, 0xC000, 0xD000, 0x3180, 0x6312, 0x2005, 0x1280, 0x4023, 0x5201] : List IWord),
      (image [w]).guard = true ∧ (image [w]).nextInstr = decode w ∧ ∃ t, step (image [w]) = .next t := by
  intro w hw
  simp only [List.mem_cons, List.not_mem_nil, or_false] at hw
  rcases hw with rfl | rfl | rfl | rfl | rfl | rfl | rfl | rfl | rfl <;>
    exact ⟨by decide, by decide, (exists_of_nextIs (p := fun _ => true) (by decide)).imp fun _ h => h.1⟩

theorem witness_PcAfterEachInstruction :
    (image [0xB108]).nextInstr = .jumpeq 1 8 ∧ (image [0xB108]).x 1 = (image [0xB108]).x 0 ∧
      (withReg 1 2 (image [0xB108])).x 1 ≠ (withReg 1 2 (image [0xB108])).x 0 ∧
      (image [0xD000]).nextInstr.isUnknown = true ∧ (image [0xC000]).nextInstr = .halt := by decide

theorem witness_PhaseIsNotConsulted : { image [0x2005] with phase := .halted }.guard = true := by decide

theorem witness_StoreWritesTheRegisterByte :
    (withReg 1 0x2A (image [])).x 1 = .byte 0x2A ∧ (withReg 15 0xFF (image [])).x 15 = .byte 0xFF := by decide

theorem witness_AddWritesTheMaskedSum :
    (withReg 1 9 (withReg 2 8 (image []))).x 1 = .byte 9 ∧ (withReg 1 9 (withReg 2 8 (image []))).x 2 = .byte 8 := by
  decide

theorem witness_AddFloatLeavesAnOpaqueCell :
    (withReg 1 0x99 (image [])).holdsDecimal 1 ∧ (withReg 1 0x99 (image [])).holdsDecimal 2 :=
  ⟨⟨0x99, by decide, by decide⟩, ⟨0x00, by decide, by decide⟩⟩

theorem witness_DecimalSumAtMost198 : floatDomain 0x99 0x99 = true ∧ decimalReading 0x99 = 99 := by decide

theorem witness_JumpeqLoadsXYWhenEqual :
    (withReg 1 5 (image [])).x 1 = .byte 5 ∧ (withReg 1 5 (image [])).x 0 = .byte 0 ∧ (5 : Byte) ≠ 0 ∧
      (image []).x 1 = .byte 0 ∧ (image []).x 0 = .byte 0 := by decide

theorem witness_HaltReportsAdvancesAndStops : opField 0xCABC = 0xC ∧ (image [0xC000, 0x2005]).guard = true ∧
    (image [0xC000, 0x2005]).nextInstr = .halt ∧
    nextIs (image [0xC000, 0x2005]).hostStep (fun r => r.2.guard) = true := by decide

/-- The fault at the last cell, where the fetch itself reports; each clause's hypotheses. -/
theorem witness_UnknownOpcodeFaultIsPrecise : (atEnd 0xD0).guard = true ∧
    (atEnd 0xD0).nextInstr.isUnknown = true ∧
    (∃ t, step (atEnd 0xD0) = .next t ∧ decide (t.phase = .faulted ∧ t.reports = (atEnd 0xD0).reports ++
      [.boundsFault .mem .read 256, .unknownOpcode 0xD000]) = true) ∧
    ∃ r, (atEnd 0xD0).hostStep = .next r ∧ decide (r.1 = .faulted) = true :=
  ⟨by decide, by decide, exists_of_nextIs (by decide), exists_of_nextIs (by decide)⟩

theorem witness_OpaqueOperandsAreRefused : (withOpaque 0 7 (image [])).x 0 = .opaqueText 7 ∧
    (withOpaque 0 7 (image [])).holdsByte 1 :=
  ⟨by decide, ⟨0, by decide⟩⟩

theorem witness_NonDecimalOperandsAreRefused :
    (withReg 1 0x0A (image [])).holdsByte 1 ∧ (withReg 1 0x0A (image [])).holdsByte 2 ∧
      ¬ (withReg 1 0x0A (image [])).holdsDecimal 1 ∧ ¬ (withReg 2 0xF0 (image [])).holdsDecimal 2 := by
  refine ⟨⟨0x0A, by decide⟩, ⟨0, by decide⟩, ?_, ?_⟩
  · rintro ⟨b, hb, hd⟩
    cases hb
    exact absurd hd (by decide)
  · rintro ⟨b, hb, hd⟩
    cases hb
    exact absurd hd (by decide)

/-- A legal state whose step runs an instruction (also the witness of PcArithmeticIsExact). -/
theorem witness_StepKeepsLegalStates : (image [0x2005]).Legal ∧ (image [0x2005]).guard = true ∧
    ∃ t, step (image [0x2005]) = .next t ∧ decide (t.pc = 2) = true :=
  ⟨⟨by decide, by decide, by decide, by decide, by decide⟩, by decide, exists_of_nextIs (by decide)⟩

/-- A legal state at the bounds: `pc` = 255, `psize` = 256, and the step to 257. -/
theorem witness_legal_at_the_bounds : (atEnd 0x2F).Legal ∧ (atEnd 0x2F).guard = true ∧
    ∃ t, step (atEnd 0x2F) = .next t ∧ decide (t.pc.toNat = 257) = true :=
  ⟨⟨by decide, by decide, by decide, by decide, by decide⟩, by decide, exists_of_nextIs (by decide)⟩

theorem witness_HostCommandsKeepLegalStates : (image [0xC000]).Legal ∧
    ∀ c ∈ ([.reset, .load [0x2005], .loadText [['2', '1', '0']], .step, .run 3, .status] : List Command),
      ∃ r, hostCommand c (image [0xC000]) = .next r := by
  refine ⟨⟨by decide, by decide, by decide, by decide, by decide⟩, fun c hc => ?_⟩
  simp only [List.mem_cons, List.not_mem_nil, or_false] at hc
  rcases hc with rfl | rfl | rfl | rfl | rfl | rfl <;>
    exact (exists_of_nextIs (p := fun _ => true) (by decide)).imp fun _ h => h.1

theorem witness_OnlyTheNamedInstructionsWrite :
    (∃ t, step (image [0x2005]) = .next t ∧ decide (t.x 0 ≠ (image [0x2005]).x 0) = true) ∧
    (∃ t, step (withReg 1 0x2A (image [0x3180])) = .next t ∧
      decide (t.byteAt 0x80 ≠ (withReg 1 0x2A (image [0x3180])).byteAt 0x80) = true) :=
  ⟨exists_of_nextIs (by decide), exists_of_nextIs (by decide)⟩

theorem witness_DataTransferFamilyLaw :
    (image [0x3180]).nextInstr.opcode ∈ ([0x1, 0x2, 0x3, 0x4] : List Nibble) := by decide

theorem witness_OpaqueComesFromAddFloatOrMove :
    ∃ t, step (withOpaque 3 0x5A (image [0x4034])) = .next t ∧ decide (t.x 4 = .opaqueText 0x5A) = true :=
  exists_of_nextIs (by decide)

theorem witness_OpaqueBitsAreNeverRead :
    AgreeButOpaqueBits (withOpaque 3 1 (image [0x3380])) (withOpaque 3 2 (image [0x3380])) ∧
      refusal (step (withOpaque 3 1 (image [0x3380]))) = some (.opaqueOperand 3) ∧
      AgreeButOpaqueBits (withOpaque 3 1 (image [0x4034])) (withOpaque 3 2 (image [0x4034])) ∧
      nextIs (step (withOpaque 3 1 (image [0x4034]))) (fun _ => true) = true := by
  refine ⟨⟨fun i => ?_, rfl⟩, by decide, ⟨fun i => ?_, rfl⟩, by decide⟩
  all_goals
    by_cases h : i = 3
    · subst h
      exact .inr ⟨1, 2, State.x_setX_same _ _ _, State.x_setX_same _ _ _⟩
    · exact .inl (by rw [withOpaque, withOpaque, State.x_setX_ne _ _ _ _ h, State.x_setX_ne _ _ _ _ h])

theorem witness_StoreIsSeenByLaterFetch :
    (withReg 0 0xC0 (image [])).x 0 = .byte 0xC0 ∧
    (∃ t, exec (.store 0 6) (withReg 0 0xC0 (image [])) = .next t ∧ decide (t.byteAt 6 = 0xC0) = true) ∧
    (startAt 6 []).pc.toNat = (6 : Byte).toNat ∧ (startAt 5 []).pc.toNat + 1 = (6 : Byte).toNat :=
  ⟨by decide, exists_of_nextIs (by decide), by decide, by decide⟩

theorem witness_JumpeqSelfLoopAndNoOperation :
    (startAt 2 [0x2000, 0xB000]).guard = true ∧ (startAt 2 [0x2000, 0xB000]).nextInstr = .jumpeq 0 0 ∧
      (startAt 2 [0x2000, 0xB000]).holdsByte 0 ∧ (startAt 2 [0x2000, 0xB000]).pc.toNat = (0 : Byte).toNat + 2 ∧
      (startAt 4 [0, 0, 0xB004]).guard = true ∧ (startAt 4 [0, 0, 0xB004]).nextInstr = .jumpeq 0 4 ∧
      (startAt 4 [0, 0, 0xB004]).holdsByte 0 ∧ (startAt 4 [0, 0, 0xB004]).pc.toNat = (4 : Byte).toNat :=
  ⟨by decide, by decide, ⟨0, by decide⟩, by decide, by decide, by decide, ⟨0, by decide⟩, by decide⟩

theorem witness_TakenJumpTargetsAreTwoTo257 : (image [0xB0FF]).guard = true ∧
    (image [0xB0FF]).nextInstr = .jumpeq 0 0xFF ∧ (image [0xB0FF]).x 0 = (image [0xB0FF]).x 0 ∧
    (∃ t, step (image [0xB0FF]) = .next t ∧ decide (t.pc.toNat = 257) = true) ∧
    (∃ t, step (image [0xB000]) = .next t ∧ decide (t.pc.toNat = 2) = true) :=
  ⟨by decide, by decide, rfl, exists_of_nextIs (by decide), exists_of_nextIs (by decide)⟩

theorem witness_ResetValues : (image [0x2005]).hostReset = (image [0x2005]).hostReset ∧
    (image [0x2005]).hostReset.pc = 0 ∧ (image [0x2005]).hostReset.draws = 1 := ⟨rfl, rfl, rfl⟩

theorem witness_EveryUnknownOpcodeFaults : Instr.unknownF ∈
    ([.unknown0, .unknown7, .unknown8, .unknown9, .unknownA, .unknownD, .unknownE, .unknownF] : List Instr) := by decide

theorem witness_EntryPointIsAddressZero : ([0x2005, 0xC000] : List IWord).length ≤ 128 := by decide

theorem witness_LoadPlacesTheImage : (List.replicate 128 (0x2005 : IWord)).length ≤ 128 ∧
    127 < (List.replicate 128 (0x2005 : IWord)).length ∧ ([] : List IWord).length ≤ 128 := by simp

theorem witness_OversizeLoadIsRefused : 128 < (List.replicate 129 (0 : IWord)).length := by simp

/-- A text within 128 tokens, and the malformed token as the 129th (log entry 9). -/
theorem witness_MalformedTokenAbortsTheLoad :
    (∀ n, ∀ g ∈ List.replicate n ['2', '0', '0', '5'], tokenWellFormed g = true ∧ tokenHexadecimal g = true) ∧
      (List.replicate 1 ['2', '0', '0', '5']).length ≤ 128 ∧
      (List.replicate 128 ['2', '0', '0', '5']).length ≤ 128 ∧ ['2', '1', '0'].length ≠ 4 := by
  refine ⟨fun n g hg => ?_, by simp, by simp, by decide⟩
  rw [List.eq_of_mem_replicate hg]
  decide

theorem witness_TextLoadAgreesWithWordLoad : [['2', '0', '0', '5']].length ≤ 128 ∧
    (∀ g ∈ [['2', '0', '0', '5']], tokenWellFormed g = true) ∧
    [['2', '0', '0', '5']].map tokenWord = [(0x2005 : IWord)].map some := by decide

/-- Both clauses at 128 good tokens, the bound of each. -/
theorem witness_TextLoadRefusals :
    (∀ h ∈ List.replicate 128 ['2', '0', '0', '5'], tokenWellFormed h = true ∧ tokenHexadecimal h = true) ∧
      (List.replicate 128 ['2', '0', '0', '5']).length = 128 ∧ ['2', '1', 'G', '3'].length = 4 ∧
      tokenHexadecimal ['2', '1', 'G', '3'] = false ∧ tokenHexadecimal ['C', '0', '0', '0'] = true := by
  refine ⟨fun h hh => ?_, by simp, by decide, by decide, by decide⟩
  rw [List.eq_of_mem_replicate hh]
  decide

theorem witness_RunEndsAsItsOutcomeSays :
    (∃ r, (image [0x2005, 0xC000]).hostRun 3 = .next r ∧ decide (r.1 = some .halted) = true) ∧
    (∃ r, (image [0x2005, 0xD000]).hostRun 3 = .next r ∧ decide (r.1 = some .faulted) = true) ∧
    (∃ r, (image [0x2005]).hostRun 3 = .next r ∧ decide (r.1 = some .ranOff) = true) :=
  ⟨exists_of_nextIs (by decide), exists_of_nextIs (by decide), exists_of_nextIs (by decide)⟩

/-- A step that gives Continue, one that does not, one that is refused; a run that has not ended and one that has. -/
theorem witness_RunRepeatsTheStepCommand :
    (∃ r, (image [0x2005, 0xC000]).hostStep = .next r ∧ decide (r.1 = .continued) = true) ∧
    (∃ r, (image [0xC000]).hostStep = .next r ∧ decide (r.1 ≠ .continued) = true) ∧
    refusal (withOpaque 3 0 (image [0x3380])).hostStep = some (.opaqueOperand 3) ∧
    (∃ r, (image [0x2005, 0xC000]).hostRun 1 = .next r ∧ decide (r.1 = none) = true) ∧
    (∃ r, (image [0x2005, 0xC000]).hostRun 2 = .next r ∧ decide (r.1 = some .halted) = true) :=
  ⟨exists_of_nextIs (by decide), exists_of_nextIs (by decide), by decide, exists_of_nextIs (by decide),
    exists_of_nextIs (by decide)⟩

theorem witness_StatusShowsTheHaltAddress : (image [0xC000]).Legal ∧ (image [0xC000]).guard = true ∧
    (image [0xC000]).nextInstr = .halt ∧ ∃ t, step (image [0xC000]) = .next t ∧ decide (t.pc = 2) = true :=
  ⟨⟨by decide, by decide, by decide, by decide, by decide⟩, by decide, by decide, exists_of_nextIs (by decide)⟩

end Sys2Proof.Tests
end

section
/-! Proofs about the state: the fields the steps keep, the program counter, the registers, the report stream, the data
bits of `Opaque` cells, and reset (10_state.md). -/

namespace Sys2Proof.Machine

/-- Inversion of an executed step: the instruction's effect after the fetch, then the end of the step. -/
theorem step_effect {s t : State} (hg : s.guard = true) (h : step s = .next t) :
    ∃ u, Effect s.nextInstr s.beginStep u ∧ t = u.endStep := by
  rcases step_cases h with ⟨hclosed, -⟩ | ⟨-, heffect⟩
  · rw [hclosed] at hg; cases hg
  · exact heffect

/-! ## The program counter at the end of a step (R19) -/

/-- The program counter a step leaves when it executes an instruction in the given state (R19). -/
def pcAfter (i : Instr) (s : State) : Addr9 :=
  match i with
  | .jumpeq r xy => if s.x r = s.x 0 then xyTarget xy + 2 else s.pc + 2
  | .load _ _ | .loadImm _ _ | .store _ _ | .move _ _ | .add _ _ _ | .addFloat _ _ _ | .halt => s.pc + 2
  | .unknown0 | .unknown7 | .unknown8 | .unknown9 | .unknownA | .unknownD | .unknownE | .unknownF => s.pc

theorem pcAfter_unknown {i : Instr} (h : i.isUnknown = true) (s : State) : pcAfter i s = s.pc := by
  cases i with
  | load | loadImm | store | move | add | addFloat | jumpeq | halt => cases h
  | _ => rfl

theorem pcAfter_of_not_jumpeq {i : Instr} (hj : ∀ r xy, i ≠ .jumpeq r xy) (hk : i.isUnknown = false) (s : State) :
    pcAfter i s = s.pc + 2 := by
  cases i with
  | jumpeq r xy => exact absurd rfl (hj r xy)
  | load | loadImm | store | move | add | addFloat | halt => rfl
  | _ => cases hk

/-- The three values `pcAfter` has. -/
theorem pcAfter_cases (i : Instr) (s : State) :
    pcAfter i s = s.pc + 2 ∨ pcAfter i s = s.pc ∨
      ∃ r xy, i = .jumpeq r xy ∧ s.x r = s.x 0 ∧ pcAfter i s = xyTarget xy + 2 := by
  cases i with
  | jumpeq r xy =>
    by_cases h : s.x r = s.x 0
    · exact .inr (.inr ⟨r, xy, rfl, h, if_pos h⟩)
    · exact .inl (if_neg h)
  | load | loadImm | store | move | add | addFloat | halt => exact .inl rfl
  | _ => exact .inr (.inl rfl)

theorem State.endStep_pc_of_executing {s : State} (h : s.phase = .executing) : s.endStep.pc = s.pc + 2 := by
  rw [State.endStep_continues h]

/-- `pcAfter` is what an effect and the end of the step leave. -/
theorem effect_endStep_pc {i : Instr} {s u : State} (h : Effect i s u) (hp : s.phase = .executing) :
    u.endStep.pc = pcAfter i s := by
  cases h with
  | halt => rw [State.endStep_stops (by simp)]; rfl
  | unknown i s hk => rw [State.endStep_stops (by simp), pcAfter_unknown hk]; rfl
  | jumpTaken r xy s b hr h0 =>
    rw [State.endStep_pc_of_executing (s := s.pcLoad (xyTarget xy)) hp, pcAfter, if_pos (hr.trans h0.symm)]
    rfl
  | jumpNotTaken r xy s a b hr h0 hne =>
    have hcell : s.x r ≠ s.x 0 := by
      rw [hr, h0]
      simpa using hne
    rw [State.endStep_pc_of_executing hp, pcAfter, if_neg hcell]
  | store r xy s b hb =>
    rw [State.memWrite_in (s := s) xy.isLt]
    exact State.endStep_pc_of_executing hp
  | load | loadImm | move | add | addFloat => exact State.endStep_pc_of_executing hp

/-- `pcAfter` looks at `pc` and the registers, which fetch leaves alone. -/
theorem pcAfter_beginStep (i : Instr) (s : State) : pcAfter i s.beginStep = pcAfter i s := by
  simp [pcAfter]

theorem step_pc {s t : State} (hg : s.guard = true) (h : step s = .next t) : t.pc = pcAfter s.nextInstr s := by
  obtain ⟨u, hu, rfl⟩ := step_effect hg h
  rw [effect_endStep_pc hu s.beginStep_phase, pcAfter_beginStep]

/-! ## Arithmetic of `pc` in 9 bits (R21) -/

theorem toNat_add_two (p : Addr9) : (p + 2).toNat = (p.toNat + 2) % 512 := BitVec.toNat_add p 2

theorem toNat_add_two_of_lt {p : Addr9} (h : p.toNat < 256) : (p + 2).toNat = p.toNat + 2 := by
  rw [toNat_add_two]; omega

/-- Adding 2 keeps the parity, also where it wraps. -/
theorem toNat_add_two_mod_two (p : Addr9) : (p + 2).toNat % 2 = p.toNat % 2 := by
  rw [toNat_add_two]; omega

theorem toNat_xyTarget (xy : Byte) : (xyTarget xy).toNat = xy.toNat :=
  BitVec.toNat_setWidth_of_le (by decide)

theorem toNat_xyTarget_add_two (xy : Byte) : (xyTarget xy + 2).toNat = xy.toNat + 2 := by
  rw [toNat_add_two_of_lt (toNat_xyTarget xy ▸ xy.isLt), toNat_xyTarget]

theorem State.Legal.pc_lt_of_guard {s : State} (h : s.Legal) (hg : s.guard = true) : s.pc.toNat < 256 :=
  Nat.lt_of_lt_of_le (s.guard_iff.mp hg) h.psize_le

theorem pcAfter_le {s : State} (h : s.pc.toNat < 256) (i : Instr) : (pcAfter i s).toNat ≤ 257 := by
  rcases pcAfter_cases i s with e | e | ⟨r, xy, -, -, e⟩
  · rw [e, toNat_add_two_of_lt h]; omega
  · rw [e]; omega
  · have := xy.isLt
    rw [e, toNat_xyTarget_add_two]; omega

/-! ## What every step keeps -/

/-- No step writes `psize` (R23). -/
theorem step_psize {s t : State} (h : step s = .next t) : t.psize = s.psize := by
  rcases step_cases h with ⟨-, rfl⟩ | ⟨-, u, hu, rfl⟩
  · rfl
  · rw [State.endStep_psize, (effect_ir_psize hu).2, State.beginStep_psize]

/-- An executed step leaves the fetched word in `ir` (R22). -/
theorem step_ir {s t : State} (hg : s.guard = true) (h : step s = .next t) : t.ir = s.fetchedWord := by
  obtain ⟨u, hu, rfl⟩ := step_effect hg h
  rw [State.endStep_ir, (effect_ir_psize hu).1, State.beginStep_ir]

/-- Every step keeps the canonical form of memory (R13). -/
theorem step_mem_wf {s t : State} (h : step s = .next t) (hm : Memory.wf s.mem) : Memory.wf t.mem := by
  rcases step_cases h with ⟨-, rfl⟩ | ⟨-, u, hu, rfl⟩
  · exact hm
  · rw [State.endStep_mem]
    exact effect_mem_wf hu (by rwa [State.beginStep_mem])

/-- Settles O36: the invariant field by field, `pc` by `pcAfter_le` below an open guard. -/
theorem stepKeepsLegalStates : Obligations.StepKeepsLegalStates := by
  intro s t hs h
  refine ⟨step_mem_wf h hs.mem_wf, ?_, step_psize h ▸ hs.psize_le, step_psize h ▸ hs.psize_even, ?_⟩
  · rcases step_cases h with ⟨-, rfl⟩ | ⟨hg, -⟩
    · exact hs.pc_le
    · rw [step_pc hg h]
      exact pcAfter_le (hs.pc_lt_of_guard hg) _
  · rcases step_cases h with ⟨-, rfl⟩ | ⟨-, u, -, rfl⟩
    · exact hs.phase_ne
    · exact u.endStep_phase_ne

/-! ## The data bits of `Opaque` cells (R12) -/

/-- The operation neither reads nor writes a register. -/
def IgnoresRegs (f : State → State) : Prop :=
  ∀ (s : State) (rs : Vector RegCell Config.numRegs), f { s with regs := rs } = { f s with regs := rs }

theorem IgnoresRegs.regs_eq {f : State → State} (hf : IgnoresRegs f) (s : State) : (f s).regs = s.regs :=
  (congrArg State.regs (hf s s.regs) :)

theorem ignoresRegs_memWrite (a : Nat) (v : Byte) : IgnoresRegs fun s => s.memWrite a v := by
  intro s rs
  by_cases h : a < Config.memSize
  · simp only [State.memWrite_in h]
  · simp only [State.memWrite_out h]; rfl

theorem ignoresRegs_beginStep : IgnoresRegs State.beginStep := by
  intro s rs
  rw [State.beginStep_eq, State.beginStep_eq]
  rfl

theorem ignoresRegs_endStep : IgnoresRegs State.endStep := by
  intro s rs
  by_cases h : s.phase = .executing
  · rw [State.endStep_continues h, State.endStep_continues (s := { s with regs := rs }) h]
  · rw [State.endStep_stops h, State.endStep_stops (s := { s with regs := rs }) h]

namespace AgreeButOpaqueBits

variable {s s' : State}

/-- Every piece of state but the registers is the same. -/
theorem eq_but_regs (h : AgreeButOpaqueBits s s') : s' = { s with regs := s'.regs } := by
  rw [← h.2]

theorem map (h : AgreeButOpaqueBits s s') {f : State → State} (hf : IgnoresRegs f) :
    AgreeButOpaqueBits (f s) (f s') := by
  refine ⟨fun i => ?_, ?_⟩
  · rw [State.x_congr (hf.regs_eq s), State.x_congr (hf.regs_eq s')]
    exact h.1 i
  · rw [hf.regs_eq s, ← hf, h.2]

theorem setX (h : AgreeButOpaqueBits s s') (i : RegIdx) {c d : RegCell} (hc : AgreeCell c d) :
    AgreeButOpaqueBits (s.setX i c) (s'.setX i d) := by
  refine ⟨fun j => ?_, ?_⟩
  · by_cases hj : j = i
    · subst hj
      rwa [State.x_setX_same, State.x_setX_same]
    · rw [State.x_setX_ne _ _ _ _ hj, State.x_setX_ne _ _ _ _ hj]
      exact h.1 j
  · exact congrArg (State.setX · i c) h.2

theorem byteAt_eq (h : AgreeButOpaqueBits s s') (a : Nat) : s'.byteAt a = s.byteAt a := by
  rw [h.eq_but_regs]; rfl

theorem guard_eq (h : AgreeButOpaqueBits s s') : s'.guard = s.guard := by
  rw [h.eq_but_regs]; rfl

theorem nextInstr_eq (h : AgreeButOpaqueBits s s') : s'.nextInstr = s.nextInstr := by
  rw [h.eq_but_regs]; rfl

theorem setOpaque (h : AgreeButOpaqueBits s s') (i : RegIdx) :
    AgreeButOpaqueBits (s.setOpaque i) (s'.setOpaque i) :=
  (h.setX i (.inr ⟨Config.freeByte s.draws, Config.freeByte s'.draws, rfl, rfl⟩)).map
    (f := fun u => { u with draws := u.draws + 1 }) fun _ _ => rfl

end AgreeButOpaqueBits

/-- The byte of a cell, where it has one, does not depend on the bits of an `Opaque` cell. -/
theorem AgreeCell.byte?_eq {c d : RegCell} (h : AgreeCell c d) : d.byte? = c.byte? := by
  rcases h with rfl | ⟨b, b', rfl, rfl⟩ <;> rfl

/-- Two outcomes of one kind: next states that agree, or the same stop. -/
inductive AgreeResult : Result → Result → Prop where
  | next {t t' : State} (h : AgreeButOpaqueBits t t') : AgreeResult (.next t) (.next t')
  | fault (f : Fault) : AgreeResult (.fault f) (.fault f)
  | refused (q : Refusal) : AgreeResult (.refused q) (.refused q)

theorem AgreeResult.mapNext {o o' : Result} (h : AgreeResult o o') {f : State → State} (hf : IgnoresRegs f) :
    AgreeResult (mapNext f o) (mapNext f o') := by
  cases h with
  | next h => exact .next (h.map hf)
  | fault f => exact .fault f
  | refused q => exact .refused q

/-- Reading a register as a byte: states that agree go on with the same byte, or are both refused. -/
theorem AgreeButOpaqueBits.withByte {s s' : State} (h : AgreeButOpaqueBits s s') (i : RegIdx) {k k' : Byte → Result}
    (hk : ∀ b, AgreeResult (k b) (k' b)) : AgreeResult (s.withByte i k) (s'.withByte i k') := by
  unfold State.withByte
  rw [(h.1 i).byte?_eq]
  cases (s.x i).byte? with
  | some b => exact hk b
  | none => exact .refused _

/-- Every instruction keeps the agreement, and is refused on both states or on neither. -/
theorem AgreeButOpaqueBits.exec {s s' : State} (h : AgreeButOpaqueBits s s') (i : Instr) :
    AgreeResult (exec i s) (exec i s') := by
  cases i with
  | load r xy =>
    simp only [Machine.exec, execLoad_eq, h.byteAt_eq]
    exact .next (h.setX r (.inl rfl))
  | loadImm r xy => exact .next (h.setX r (.inl rfl))
  | store r xy => exact h.withByte r fun b => .next (h.map (ignoresRegs_memWrite _ b))
  | move x y => exact .next (h.setX y (h.1 x))
  | add r x y => exact h.withByte x fun a => h.withByte y fun b => .next (h.setX r (.inl rfl))
  | addFloat r x y =>
    refine h.withByte x fun a => h.withByte y fun b => ?_
    cases floatDomain a b with
    | true => exact .next (h.setOpaque r)
    | false => exact .refused _
  | jumpeq r xy =>
    refine h.withByte r fun a => h.withByte 0 fun b => .next ?_
    cases aluEq a b with
    | true => exact h.map (f := (State.pcLoad · _)) fun _ _ => rfl
    | false => exact h
  | halt => exact .next (h.map (f := State.halt) fun _ _ => rfl)
  | unknown0 | unknown7 | unknown8 | unknown9 | unknownA | unknownD | unknownE | unknownF =>
    exact .next (h.map (f := State.raiseUnknownOpcode) fun _ _ => rfl)

/-- States that agree step alike. -/
theorem AgreeButOpaqueBits.step {s s' : State} (h : AgreeButOpaqueBits s s') : AgreeResult (step s) (step s') := by
  cases hg : s.guard with
  | false =>
    rw [step_of_not_guard hg, step_of_not_guard (h.guard_eq.trans hg)]
    exact .next h
  | true =>
    rw [step_of_guard hg, step_of_guard (h.guard_eq.trans hg), h.nextInstr_eq]
    exact ((h.map ignoresRegs_beginStep).exec _).mapNext ignoresRegs_endStep

/-- Settles O44: the two outcomes of `AgreeButOpaqueBits.step`, read off. -/
theorem opaqueBitsAreNeverRead : Obligations.OpaqueBitsAreNeverRead := by
  intro s s' h
  have hstep := h.step
  refine ⟨fun t ht => ?_, fun q hq => ?_⟩
  · rw [ht] at hstep
    generalize step s' = o at hstep
    cases hstep with
    | next ha => exact ⟨_, rfl, ha⟩
  · rw [hq] at hstep
    generalize step s' = o at hstep
    cases hstep with
    | refused => rfl

/-! ## The program counter and the phase -/

/-- Settles O15: `step_pc`, with the value of `pcAfter` in each row of R19. -/
theorem pcAfterEachInstruction : Obligations.PcAfterEachInstruction := by
  intro s t hg h
  rw [step_pc hg h]
  refine ⟨fun r xy hi => ?_, fun hk => pcAfter_unknown hk s, fun hj hk => pcAfter_of_not_jumpeq hj hk s⟩
  rw [hi]
  exact ⟨fun heq => if_pos heq, fun hne => if_neg hne⟩

/-- The end of the step turns phase Executing to Fetching and leaves the others (R80). -/
theorem State.endStep_phase (s : State) : s.endStep.phase = if s.phase = .executing then .fetching else s.phase := by
  by_cases h : s.phase = .executing
  · rw [State.endStep_continues h, if_pos h]
  · rw [State.endStep_stops h, if_neg h]

/-- Settles O16: the phase of the instruction's effect, through the end of the step. -/
theorem phaseAfterEachInstruction : Obligations.PhaseAfterEachInstruction := by
  intro s t hg h
  obtain ⟨u, hu, rfl⟩ := step_effect hg h
  rw [State.endStep_phase, effect_phase hu, State.beginStep_phase]
  by_cases hh : s.nextInstr = .halt
  · simp [hh]
  · cases s.nextInstr.isUnknown <;> simp [hh]

/-- Settles O19. -/
theorem stepLeavesBoundAndHoldsFetchedWord : Obligations.StepLeavesBoundAndHoldsFetchedWord :=
  fun _ _ h => ⟨step_psize h, fun hg => step_ir hg h⟩

/-- Settles O40: of the values of `pcAfter` only a taken jump's can change the parity. -/
theorem pcParityChangesOnlyByATakenJump : Obligations.PcParityChangesOnlyByATakenJump := by
  intro s t h
  rcases step_cases h with ⟨-, rfl⟩ | ⟨hg, -⟩
  · exact .inl rfl
  · rw [step_pc hg h]
    rcases pcAfter_cases s.nextInstr s with e | e | ⟨r, xy, hi, heq, e⟩
    · exact .inl (e ▸ toNat_add_two_mod_two s.pc)
    · exact .inl (by rw [e])
    · refine .inr ⟨r, xy, hi, heq, ?_⟩
      rw [e, toNat_xyTarget_add_two]
      omega

/-! ## What writes registers and memory -/

/-- Settles O41: a change is made by the instruction's effect, not by the fetch or the end of the step. -/
theorem onlyTheNamedInstructionsWrite : Obligations.OnlyTheNamedInstructionsWrite := by
  intro s t h
  rcases step_cases h with ⟨-, rfl⟩ | ⟨-, u, hu, rfl⟩
  · exact ⟨fun i hne => absurd rfl hne, fun a hne => absurd rfl hne⟩
  · exact ⟨fun i hne => effect_x hu i (by simpa using hne), fun a hne => effect_byteAt hu a (by simpa using hne)⟩

/-- A register that reads `Opaque` after a write to the bank did so before, or is the one written. -/
theorem State.x_opaque_of_setX {s : State} {r i : RegIdx} {c : RegCell} {b : Byte}
    (h : (s.setX r c).x i = .opaqueText b) : s.x i = .opaqueText b ∨ (i = r ∧ c = .opaqueText b) := by
  by_cases hi : i = r
  · subst hi
    exact .inr ⟨rfl, by rwa [State.x_setX_same] at h⟩
  · exact .inl (by rwa [State.x_setX_ne _ _ _ _ hi] at h)

theorem State.x_opaque_of_setX_byte {s : State} {r i : RegIdx} {v b : Byte}
    (h : (s.setX r (.byte v)).x i = .opaqueText b) : s.x i = .opaqueText b := by
  rcases State.x_opaque_of_setX h with hs | ⟨-, hv⟩
  · exact hs
  · cases hv

/-- An `Opaque` register after an effect was so before, or was written by ADD_FLOAT or by MOVE from an `Opaque`
cell. -/
theorem effect_x_opaque {j : Instr} {s u : State} (h : Effect j s u) {i : RegIdx} {b : Byte}
    (hb : u.x i = .opaqueText b) :
    s.x i = .opaqueText b ∨ (∃ x y, j = .addFloat i x y) ∨ ∃ x, j = .move x i ∧ s.x x = .opaqueText b := by
  cases h with
  | load | loadImm | add => exact .inl (State.x_opaque_of_setX_byte hb)
  | move x y =>
    rcases State.x_opaque_of_setX hb with hs | ⟨rfl, hx⟩
    · exact .inl hs
    · exact .inr (.inr ⟨x, rfl, hx⟩)
  | addFloat r x y =>
    by_cases hi : i = r
    · subst hi
      exact .inr (.inl ⟨x, y, rfl⟩)
    · exact .inl (by rwa [State.x_setOpaque_ne _ _ _ hi] at hb)
  | store r xy s v hv =>
    rw [State.memWrite_in (s := s) xy.isLt] at hb
    exact .inl hb
  | jumpTaken | jumpNotTaken | halt | unknown => exact .inl hb

/-- Settles O43: `effect_x_opaque` between the fetch and the end of the step, which leave the registers alone. -/
theorem opaqueComesFromAddFloatOrMove : Obligations.OpaqueComesFromAddFloatOrMove := by
  intro s t i b h hb
  rcases step_cases h with ⟨-, rfl⟩ | ⟨-, u, hu, rfl⟩
  · exact .inl hb
  · rw [State.x_endStep] at hb
    simpa using effect_x_opaque hu hb

/-! ## The report stream (R24) -/

/-- The same state with another report stream. -/
def State.withReports (s : State) (rs : List ReportEvent) : State := { s with reports := rs }

/-- Fetch appends the same reports to any stream. -/
theorem State.beginStep_withReports (s : State) (rs : List ReportEvent) :
    (s.withReports rs).beginStep = s.beginStep.withReports (rs ++ s.fetchReports) := by
  rw [State.beginStep_eq, State.beginStep_eq]
  rfl

theorem State.endStep_withReports (s : State) (rs : List ReportEvent) :
    (s.withReports rs).endStep = s.endStep.withReports rs := by
  by_cases h : s.phase = .executing
  · rw [State.endStep_continues h, State.endStep_continues (s := s.withReports rs) h]; rfl
  · rw [State.endStep_stops h, State.endStep_stops (s := s.withReports rs) h]

/-- An instruction has its effect under any stream, and differs in the stream alone. -/
theorem effect_withReports {i : Instr} {s u : State} (h : Effect i s u) (rs : List ReportEvent) :
    ∃ u', Effect i (s.withReports rs) u' ∧ u'.withReports u.reports = u := by
  cases h with
  | load r xy => exact ⟨_, .load r xy _, rfl⟩
  | loadImm r xy => exact ⟨_, .loadImm r xy _, rfl⟩
  | store r xy s b hb =>
    refine ⟨_, .store r xy _ b hb, ?_⟩
    rw [State.memWrite_in (s := s) xy.isLt, State.memWrite_in (s := s.withReports rs) xy.isLt]
    rfl
  | move x y => exact ⟨_, .move x y _, rfl⟩
  | add r x y _ a b hx hy => exact ⟨_, .add r x y _ a b hx hy, rfl⟩
  | addFloat r x y _ a b hx hy hd => exact ⟨_, .addFloat r x y _ a b hx hy hd, rfl⟩
  | jumpTaken r xy _ b hr h0 => exact ⟨_, .jumpTaken r xy _ b hr h0, rfl⟩
  | jumpNotTaken r xy _ a b hr h0 hne => exact ⟨_, .jumpNotTaken r xy _ a b hr h0 hne, rfl⟩
  | halt => exact ⟨_, .halt _, rfl⟩
  | unknown _ _ hk => exact ⟨_, .unknown i _ hk, rfl⟩

/-- Settles O45: `effect_withReports` between the fetch and the end of the step; the events are those of the fetch and
of execute. -/
theorem reportStreamIsNeverRead : Obligations.ReportStreamIsNeverRead := by
  intro s t rs h
  rcases step_cases h with ⟨hg, rfl⟩ | ⟨hg, u, hu, rfl⟩
  · exact ⟨t.withReports rs, [], step_of_not_guard hg, by simp, by simp [State.withReports], rfl⟩
  · obtain ⟨u', hu', hrest⟩ := effect_withReports hu (rs ++ s.fetchReports)
    rw [← State.beginStep_withReports] at hu'
    refine ⟨u'.endStep, s.fetchReports ++ execReports s.nextInstr s.fetchedWord,
      step_of_effect (s := s.withReports rs) hg hu', ?_, ?_, ?_⟩
    · rw [State.endStep_reports, effect_reports hu, State.beginStep_reports, State.beginStep_ir, List.append_assoc]
    · rw [State.endStep_reports, effect_reports hu', State.beginStep_reports, State.beginStep_ir, List.append_assoc]
      rfl
    · calc u'.endStep.withReports u.endStep.reports
          = (u'.withReports u.reports).endStep := by rw [State.endStep_withReports, State.endStep_reports]
        _ = u.endStep := by rw [hrest]

/-! ## The register bank (R16) -/

theorem State.regRead_in (s : State) (i : RegIdx) : s.regRead i.toNat = (s.x i, s) := dif_pos i.isLt

theorem State.regWrite_in (s : State) (i : RegIdx) (c : RegCell) : s.regWrite i.toNat c = s.setX i c := dif_pos i.isLt

/-- Settles O10: inside the bank the contract is `x` and `setX`, outside it a report. -/
theorem registerBankContract : Obligations.RegisterBankContract := by
  refine ⟨fun s i c => ?_, fun s i c hi => ⟨dif_neg (Nat.not_lt.mpr hi), dif_neg (Nat.not_lt.mpr hi)⟩⟩
  rw [State.regWrite_in]
  exact ⟨s.regRead_in i, s.x_setX_same i c, fun j hj => s.x_setX_ne i j c hj, rfl⟩

/-! ## Legal states and reset (R21, R37) -/

/-- Settles O37. -/
theorem resetIsLegal : Obligations.ResetIsLegal where
  mem_wf := State.reset_mem_wf
  pc_le := by decide
  psize_le := by decide
  psize_even := by decide
  phase_ne := by decide

/-- Settles O39: below an open guard a legal state has `pc` under 256. -/
theorem pcArithmeticIsExact : Obligations.PcArithmeticIsExact := by
  intro s hs hg
  have hpc := hs.pc_lt_of_guard hg
  exact ⟨hpc, toNat_add_two_of_lt hpc, toNat_xyTarget_add_two⟩

theorem State.byteAt_of_mem_nil {s : State} (h : s.mem = []) (a : Nat) : s.byteAt a = 0 := by
  simp [State.byteAt, h]

theorem State.x_reset (i : RegIdx) : State.reset.x i = .byte 0 := by
  simp [State.x, State.reset]

/-- Settles O49: the two reset states differ in `ir` and the model's counter only. -/
theorem resetValues : Obligations.ResetValues := by
  rintro t (rfl | ⟨s, rfl⟩)
  · exact ⟨State.byteAt_of_mem_nil rfl, State.x_reset, rfl, rfl, rfl, rfl⟩
  · exact ⟨State.byteAt_of_mem_nil rfl, State.x_reset, rfl, rfl, rfl, rfl⟩

end Sys2Proof.Machine
end

section
/-! Proofs about memory: the contract of a read and of a write in and out of range, and the fetch of a stored byte
(20_memory.md). -/

namespace Sys2Proof.Machine

/-! ## The access contract (R41 to R44) -/

/-- Settles O6: inside the memory a byte is what its cell holds. -/
theorem inRangeReadReturnsTheCell : Obligations.InRangeReadReturnsTheCell := by
  intro s a ha
  have hbyte : s.byteAt a = s.mem.read a := if_pos ha
  rw [State.memRead_in ha, hbyte]

/-- Settles O7. -/
theorem outOfRangeReadReportsAndReturnsZero : Obligations.OutOfRangeReadReportsAndReturnsZero :=
  fun _ _ ha => State.memRead_out (Nat.not_lt.mpr ha)

/-- Settles O9. -/
theorem outOfRangeWriteReportsAndWritesNothing : Obligations.OutOfRangeWriteReportsAndWritesNothing :=
  fun _ _ v ha => State.memWrite_out (Nat.not_lt.mpr ha) v

theorem State.byteAt_memWrite_same {s : State} {a : Nat} (h : a < Config.memSize) (v : Byte) :
    (s.memWrite a v).byteAt a = v := by
  rw [State.byteAt_memWrite h, if_pos rfl]

theorem State.sameMemBut_memWrite {s : State} {a : Nat} (h : a < Config.memSize) (v : Byte) :
    SameMemBut a s (s.memWrite a v) := by
  intro b hb
  rw [State.byteAt_memWrite h, if_neg hb]

theorem State.memWrite_rest {s : State} {a : Nat} (h : a < Config.memSize) (v : Byte) :
    { s.memWrite a v with mem := s.mem } = s := by
  rw [State.memWrite_in h]

/-- Settles O8: the read answers the byte a write has set, and the write changes one cell of memory alone. -/
theorem writeThenReadReturnsTheByte : Obligations.WriteThenReadReturnsTheByte := by
  intro s a v ha
  refine ⟨?_, State.sameMemBut_memWrite ha v, State.memWrite_rest ha v⟩
  rw [State.memRead_in ha, State.byteAt_memWrite_same ha]

/-! ## A stored byte is fetched (R55) -/

theorem exec_store_of_byte {r : RegIdx} {xy : Byte} {s : State} {b : Byte} (h : s.x r = .byte b) :
    exec (.store r xy) s = .next (s.memWrite xy.toNat b) :=
  execStore_eq h

theorem State.fetch_ir (s : State) : s.fetch.ir = s.fetchedWord := by
  rw [State.fetch_eq]

/-- The high byte of a fetched word is the byte at `pc` (R81). -/
theorem State.highByte_fetch (s : State) : highByte s.fetch.ir = s.byteAt s.pc.toNat := by
  rw [State.fetch_ir, State.fetchedWord, highByte_wordOfBytes]

/-- The low byte of a fetched word is the byte after `pc` (R81). -/
theorem State.lowByte_fetch (s : State) : lowByte s.fetch.ir = s.byteAt (s.pc.toNat + 1) := by
  rw [State.fetch_ir, State.fetchedWord, lowByte_wordOfBytes]

/-- Settles O46: the fetch reads its two bytes from the memory that holds the stored byte at XY. -/
theorem storeIsSeenByLaterFetch : Obligations.StoreIsSeenByLaterFetch := by
  intro r xy s t u b hb hexec hmem
  obtain rfl : s.memWrite xy.toNat b = t := by
    rw [exec_store_of_byte hb] at hexec
    exact Host.Outcome.next.inj hexec
  have hstored : u.byteAt xy.toNat = b :=
    (State.byteAt_congr hmem _).trans (State.byteAt_memWrite_same (xyAddress_lt xy) b)
  refine ⟨fun hpc => ?_, fun hpc => ?_⟩
  · rw [State.highByte_fetch, hpc, hstored]
  · rw [State.lowByte_fetch, hpc, hstored]

end Sys2Proof.Machine
end

section
/-! Proofs about the encoding: the fields of a word, the opcode map, and the two round trips of decoder and encoder
(30_encoding.md). -/

namespace Sys2Proof

/-! ## Decoding an encoded instruction (R61 to R63, R68) -/

/-- The opcode of the canonical word chooses the instruction's own row of the opcode map, and the fields that row reads
are the ones the encoder filled. -/
theorem decode_encode (i : Instr) : decode (encode i) = i := by
  have hop := opField_encode i
  cases i with
  | unknown0 => exact decode_op0 hop
  | load r xy => simpa [encode] using decode_op1 hop
  | loadImm r xy => simpa [encode] using decode_op2 hop
  | store r xy => simpa [encode] using decode_op3 hop
  | move x y => simpa [encode] using decode_op4 hop
  | add r x y => simpa [encode] using decode_op5 hop
  | addFloat r x y => simpa [encode] using decode_op6 hop
  | unknown7 => exact decode_op7 hop
  | unknown8 => exact decode_op8 hop
  | unknown9 => exact decode_op9 hop
  | unknownA => exact decode_opA hop
  | jumpeq r xy => simpa [encode] using decode_opB hop
  | halt => exact decode_opC hop
  | unknownD => exact decode_opD hop
  | unknownE => exact decode_opE hop
  | unknownF => exact decode_opF hop

theorem decodeBytes_cons_cons (hi lo : Byte) (rest : List Byte) :
    decodeBytes (hi :: lo :: rest) = .ok (decode (wordOfBytes hi lo), rest) := rfl

theorem encodeBytes_append (i : Instr) (rest : List Byte) :
    encodeBytes i ++ rest = highByte (encode i) :: lowByte (encode i) :: rest := rfl

/-- Settles O3: `decode_encode`, on the word that the two bytes put together again. -/
theorem decodeOfEncodeIsTheInstruction : Obligations.DecodeOfEncodeIsTheInstruction := by
  refine fun i => ⟨decode_encode i, fun rest => ?_⟩
  rw [encodeBytes_append, decodeBytes_cons_cons, wordOfBytes_high_low, decode_encode]

/-! ## Encoding a decoded word (R69) -/

section reassembled

variable {w : IWord} {op : Nibble}

/-- Form RM ignores no field: it puts the word together again. -/
theorem encodeRM_fields (h : opField w = op) : encodeRM op (rField w) (xyField w) = w := by
  subst h
  refine BitVec.eq_of_toNat_eq ?_
  rw [toNat_encodeRM, toNat_opField, toNat_rField, toNat_xyField]
  omega

/-- Form RRR ignores no field either. -/
theorem encodeRRR_fields (h : opField w = op) : encodeRRR op (rField w) (xField w) (yField w) = w := by
  subst h
  refine BitVec.eq_of_toNat_eq ?_
  rw [toNat_encodeRRR, toNat_opField, toNat_rField, toNat_xField, toNat_yField]
  omega

theorem toNat_encodeMOV_fields (w : IWord) (op : Nibble) :
    (encodeMOV op (xField w) (yField w)).toNat = op.toNat * 4096 + w.toNat % 256 := by
  rw [toNat_encodeMOV, toNat_xField, toNat_yField]
  omega

/-- The six opcodes of the forms RM and RRR. -/
theorem encode_decode_of_all_fields (h : opField w ∈ ([0x1, 0x2, 0x3, 0x5, 0x6, 0xB] : List Nibble)) :
    encode (decode w) = w := by
  simp only [List.mem_cons, List.not_mem_nil, or_false] at h
  rcases h with h | h | h | h | h | h
  · rw [decode_op1 h]; exact encodeRM_fields h
  · rw [decode_op2 h]; exact encodeRM_fields h
  · rw [decode_op3 h]; exact encodeRM_fields h
  · rw [decode_op5 h]; exact encodeRRR_fields h
  · rw [decode_op6 h]; exact encodeRRR_fields h
  · rw [decode_opB h]; exact encodeRM_fields h

/-- The nine opcodes of the form NONE. -/
theorem encode_decode_of_no_field
    (h : opField w ∈ ([0x0, 0x7, 0x8, 0x9, 0xA, 0xC, 0xD, 0xE, 0xF] : List Nibble)) :
    encode (decode w) = encodeNONE (opField w) := by
  simp only [List.mem_cons, List.not_mem_nil, or_false] at h
  rcases h with h | h | h | h | h | h | h | h | h
  · rw [decode_op0 h, h]; rfl
  · rw [decode_op7 h, h]; rfl
  · rw [decode_op8 h, h]; rfl
  · rw [decode_op9 h, h]; rfl
  · rw [decode_opA h, h]; rfl
  · rw [decode_opC h, h]; rfl
  · rw [decode_opD h, h]; rfl
  · rw [decode_opE h, h]; rfl
  · rw [decode_opF h, h]; rfl

end reassembled

/-- Settles O4: form by form, the fields read from the word and put together again. -/
theorem encodeOfDecodeIsTheCanonicalWord : Obligations.EncodeOfDecodeIsTheCanonicalWord := by
  refine fun w => ⟨fun h => ?_, fun h => ?_, fun h => ?_⟩
  · rw [encode_decode_of_all_fields h]
  · rw [decode_op4 h]
    exact toNat_encodeMOV_fields w 0x4
  · rw [encode_decode_of_no_field h, toNat_encodeNONE, toNat_opField]

/-! ## The fields and the opcode map (R61, R68) -/

/-- XY is the two digits X and Y (R61). -/
theorem toNat_xyField_eq_digits (w : IWord) : (xyField w).toNat = 16 * (xField w).toNat + (yField w).toNat := by
  rw [toNat_xyField, toNat_xField, toNat_yField]
  omega

/-- Settles O1. -/
theorem instructionFieldBits : Obligations.InstructionFieldBits := fun w =>
  ⟨toNat_opField w, toNat_rField w, toNat_xField w, toNat_yField w, toNat_xyField w, toNat_xyField_eq_digits w⟩

/-- Settles O2: the sixteen entries of the opcode map. -/
theorem opcodeMapIsTheTable : Obligations.OpcodeMapIsTheTable := fun _ =>
  ⟨decode_op0, decode_op1, decode_op2, decode_op3, decode_op4, decode_op5, decode_op6, decode_op7, decode_op8,
    decode_op9, decode_opA, decode_opB, decode_opC, decode_opD, decode_opE, decode_opF⟩

end Sys2Proof
end

section
/-! Proofs about the instruction cycle: the fetch, one step between the fetch and its end, the `step` command, and the
run that repeats it (40_instruction_cycle.md). -/

namespace Sys2Proof.Machine

/-! ## The fetch (R81) -/

theorem State.byteAt_in {s : State} {a : Nat} (h : a < Config.memSize) : s.byteAt a = s.mem.read a := if_pos h

theorem State.fetch_reports (s : State) : s.fetch.reports = s.reports ++ s.fetchReports := by
  rw [State.fetch_eq]

/-- Fetch changes `ir` and the reports only. -/
theorem State.fetch_rest (s : State) : { s.fetch with ir := s.ir, reports := s.reports } = s := by
  rw [State.fetch_eq]

theorem State.fetchReports_of_lt {s : State} (h : s.pc.toNat < 255) : s.fetchReports = [] := by
  have h0 : s.pc.toNat < Config.memSize := Nat.lt_succ_of_lt h
  have h1 : s.pc.toNat + 1 < Config.memSize := Nat.succ_lt_succ h
  rw [State.fetchReports, if_pos h0, if_pos h1, List.append_nil]

/-- At 255 the first byte is in memory and the second is not. -/
theorem State.fetchReports_of_eq {s : State} (h : s.pc.toNat = 255) :
    s.fetchReports = [.boundsFault .mem .read 256] := by
  rw [State.fetchReports, h]
  rfl

/-- The state execute runs in is the fetch's, in phase Executing (R80). -/
theorem State.beginStep_eq_fetch (s : State) : s.beginStep = { s.fetch with phase := .executing } := by
  rw [State.beginStep_eq, State.fetch_eq]

theorem State.nextInstr_eq_decode_fetch (s : State) : s.nextInstr = decode s.fetch.ir := by
  rw [State.fetch_ir, State.nextInstr]

/-- Settles O11: the bytes of the fetched word and the reports of the fetch, below 255 and at 255. -/
theorem fetchReadsTwoCellsBigEndian : Obligations.FetchReadsTwoCellsBigEndian := by
  intro s hpc
  refine ⟨?_, fun hlt => ⟨?_, ?_⟩, fun heq => ⟨?_, ?_⟩, s.fetch_rest, fun hg => ?_⟩
  · rw [State.highByte_fetch, State.byteAt_in (Nat.lt_succ_of_le hpc)]
  · rw [State.lowByte_fetch, State.byteAt_in (Nat.succ_lt_succ hlt)]
  · rw [State.fetch_reports, State.fetchReports_of_lt hlt, List.append_nil]
  · rw [State.lowByte_fetch, heq]
    exact s.byteAt_out (by decide)
  · rw [State.fetch_reports, State.fetchReports_of_eq heq]
  · rw [step_of_guard hg, State.nextInstr_eq_decode_fetch, State.beginStep_eq_fetch]

/-! ## One step (R80, R83, R86) -/

theorem nextInstr_of_decodeBytes {s : State} {i : Instr}
    (h : decodeBytes [s.byteAt s.pc.toNat, s.byteAt (s.pc.toNat + 1)] = .ok (i, [])) : s.nextInstr = i := by
  rw [decodeBytes_cons_cons] at h
  cases h
  rfl

theorem State.endStep_eq (s : State) :
    s.endStep = if s.phase = .executing then { s with pc := s.pc + 2, phase := .fetching } else s := by
  by_cases h : s.phase = .executing
  · rw [State.endStep_continues h, if_pos h]
  · rw [State.endStep_stops h, if_neg h]

/-- Settles O12: `step_of_guard`, with the state execute runs in written out. -/
theorem stepRunsTheDecodedInstruction : Obligations.StepRunsTheDecodedInstruction := by
  refine ⟨fun s i hg hi => ?_, State.endStep_eq⟩
  rw [step_of_guard hg, nextInstr_of_decodeBytes hi, State.beginStep_eq, State.fetchReports, ← List.append_assoc]
  rfl

theorem State.guard_eq_false_iff (s : State) : s.guard = false ↔ s.psize.toNat ≤ s.pc.toNat := by
  rw [← Bool.not_eq_true, State.guard_iff, Nat.not_lt]

/-- A HALT stops the step: its end adds nothing to the `pc + 2` of HALT itself (R141). -/
theorem step_of_halt {s : State} (hg : s.guard = true) (hi : s.nextInstr = .halt) :
    step s = .next s.beginStep.halt := by
  have h : Effect s.nextInstr s.beginStep s.beginStep.halt := hi ▸ .halt _
  rw [step_of_effect hg h, State.endStep_stops (by simp)]

/-- An unknown opcode stops the step at its own address (R163). -/
theorem step_of_unknown {s : State} (hg : s.guard = true) (hi : s.nextInstr.isUnknown = true) :
    step s = .next s.beginStep.raiseUnknownOpcode := by
  rw [step_of_effect hg (.unknown _ _ hi), State.endStep_stops (by simp)]

/-- Only a HALT ends a step in phase Halted (R26). -/
theorem nextInstr_of_step_halted {s t : State} (hg : s.guard = true) (h : step s = .next t)
    (hp : t.phase = .halted) : s.nextInstr = .halt := by
  rw [phaseAfterEachInstruction s t hg h] at hp
  split at hp
  · assumption
  · split at hp <;> cases hp

/-- Only an unknown opcode ends a step in phase Faulted (R26). -/
theorem nextInstr_of_step_faulted {s t : State} (hg : s.guard = true) (h : step s = .next t)
    (hp : t.phase = .faulted) : s.nextInstr.isUnknown = true := by
  rw [phaseAfterEachInstruction s t hg h] at hp
  split at hp
  · cases hp
  · split at hp
    · assumption
    · cases hp

/-! ## The `step` command (R80, R85, R86) -/

theorem State.hostStep_of_not_guard {s : State} (h : s.guard = false) : s.hostStep = .next (.ranOff, s) := by
  simp [State.hostStep, h]

theorem State.hostStep_of_guard {s : State} (h : s.guard = true) :
    s.hostStep = mapNext (fun t => (t.stepResult, t)) (step s) := by
  simp [State.hostStep, h]

/-- Inversion of the `step` command: RanOff with the guard closed, else the step, with the result of its phase. -/
theorem State.hostStep_cases {s t : State} {o : StepResult} (h : s.hostStep = .next (o, t)) :
    (s.guard = false ∧ o = .ranOff ∧ t = s) ∨ (s.guard = true ∧ step s = .next t ∧ t.stepResult = o) := by
  cases hg : s.guard with
  | false =>
    rw [State.hostStep_of_not_guard hg] at h
    cases h
    exact .inl ⟨rfl, rfl, rfl⟩
  | true =>
    rw [State.hostStep_of_guard hg] at h
    obtain ⟨u, hu, he⟩ := mapNext_next h
    cases he
    exact .inr ⟨rfl, hu, rfl⟩

/-- No executed step ends in phase Executing (R26). -/
theorem step_phase_ne {s t : State} (hg : s.guard = true) (h : step s = .next t) : t.phase ≠ .executing := by
  obtain ⟨u, -, rfl⟩ := step_effect hg h
  exact u.endStep_phase_ne

/-- The result and the phase it is read off, at the end of a step. -/
theorem State.stepResult_cases {t : State} (h : t.phase ≠ .executing) :
    (t.stepResult = .continued ∧ t.phase = .fetching) ∨ (t.stepResult = .halted ∧ t.phase = .halted) ∨
      (t.stepResult = .faulted ∧ t.phase = .faulted) := by
  unfold State.stepResult
  cases hp : t.phase with
  | executing => exact absurd hp h
  | fetching => exact .inl ⟨rfl, rfl⟩
  | halted => exact .inr (.inl ⟨rfl, rfl⟩)
  | faulted => exact .inr (.inr ⟨rfl, rfl⟩)

/-- Settles O13. -/
theorem ranOffChangesNothing : Obligations.RanOffChangesNothing := by
  intro s hs
  have hg := s.guard_eq_false_iff.mpr hs
  exact ⟨step_of_not_guard hg, State.hostStep_of_not_guard hg⟩

/-- Settles O14: an executed step does not end in phase Executing, and the result names each other phase. -/
theorem stepCommandNamesTheOutcome : Obligations.StepCommandNamesTheOutcome := by
  intro s t o hg h
  rcases State.hostStep_cases h with ⟨hclosed, -⟩ | ⟨-, hstep, rfl⟩
  · rw [hclosed] at hg; cases hg
  · exact ⟨hstep, State.stepResult_cases (step_phase_ne hg hstep)⟩

/-! ## The run (R84) -/

theorem State.hostRun_succ_of_continued {s t : State} (h : s.hostStep = .next (.continued, t)) (n : Nat) :
    s.hostRun (n + 1) = t.hostRun n := by
  rw [State.hostRun, h]

theorem State.hostRun_succ_of_ended {s t : State} {o : StepResult} (h : s.hostStep = .next (o, t))
    (ho : o ≠ .continued) (n : Nat) : s.hostRun (n + 1) = .next (some o, t) := by
  rw [State.hostRun, h]
  cases o with
  | continued => exact absurd rfl ho
  | halted | faulted | ranOff => rfl

theorem State.hostRun_succ_of_refused {s : State} {q : Refusal} (h : s.hostStep = .refused q) (n : Nat) :
    s.hostRun (n + 1) = .refused q := by
  rw [State.hostRun, h]

/-- What the first step makes of a run, whatever its fuel: the run goes on, ends, or is refused. -/
theorem State.hostRun_succ_cases (s : State) :
    (∃ t, s.hostStep = .next (.continued, t) ∧ ∀ n, s.hostRun (n + 1) = t.hostRun n) ∨
      (∃ o t, s.hostStep = .next (o, t) ∧ o ≠ .continued ∧ ∀ n, s.hostRun (n + 1) = .next (some o, t)) ∨
      (∃ q, s.hostStep = .refused q ∧ ∀ n, s.hostRun (n + 1) = .refused q) := by
  cases h : s.hostStep with
  | next r =>
    obtain ⟨o, t⟩ := r
    by_cases ho : o = .continued
    · subst ho
      exact .inl ⟨t, rfl, State.hostRun_succ_of_continued h⟩
    · exact .inr (.inl ⟨o, t, rfl, ho, State.hostRun_succ_of_ended h ho⟩)
  | fault f => cases f
  | refused q => exact .inr (.inr ⟨q, rfl, State.hostRun_succ_of_refused h⟩)

/-- A run that has not ended goes on from where it stands. -/
theorem State.hostRun_add_of_running {n : Nat} (m : Nat) {s t : State} (h : s.hostRun n = .next (none, t)) :
    s.hostRun (n + m) = t.hostRun m := by
  induction n generalizing s with
  | zero => cases h; rw [Nat.zero_add]
  | succ n ih =>
    rw [Nat.succ_add]
    rcases s.hostRun_succ_cases with ⟨u, -, hrun⟩ | ⟨o, u, -, -, hrun⟩ | ⟨q, -, hrun⟩
    · rw [hrun] at h ⊢
      exact ih h
    · rw [hrun] at h; cases h
    · rw [hrun] at h; cases h

/-- A run that has ended is the same when watched for longer. -/
theorem State.hostRun_add_of_ended {n : Nat} (m : Nat) {s t : State} {o : StepResult}
    (h : s.hostRun n = .next (some o, t)) : s.hostRun (n + m) = .next (some o, t) := by
  induction n generalizing s with
  | zero => cases h
  | succ n ih =>
    rw [Nat.succ_add]
    rcases s.hostRun_succ_cases with ⟨u, -, hrun⟩ | ⟨o', u, -, -, hrun⟩ | ⟨q, -, hrun⟩
    · rw [hrun] at h ⊢
      exact ih h
    · rwa [hrun] at h ⊢
    · rw [hrun] at h; cases h

/-- Settles O56: the first step of a run, and the two laws by induction on the fuel. -/
theorem runRepeatsTheStepCommand : Obligations.RunRepeatsTheStepCommand :=
  ⟨fun _ => rfl, fun n _ _ h => State.hostRun_succ_of_continued h n,
    fun n _ _ _ h ho => State.hostRun_succ_of_ended h ho n, fun n _ _ h => State.hostRun_succ_of_refused h n,
    fun _ m _ _ _ => ⟨State.hostRun_add_of_running m, State.hostRun_add_of_ended m⟩⟩

/-! ## How a run ends (R86) -/

/-- A run that has ended did so in a last step, which gave its outcome. -/
theorem State.hostRun_last_step {n : Nat} {s t : State} {o : StepResult} (h : s.hostRun n = .next (some o, t)) :
    ∃ u : State, u.hostStep = .next (o, t) ∧ o ≠ .continued := by
  induction n generalizing s with
  | zero => cases h
  | succ n ih =>
    rcases s.hostRun_succ_cases with ⟨u, -, hrun⟩ | ⟨o', u, hstep, ho, hrun⟩ | ⟨q, -, hrun⟩
    · exact ih (hrun n ▸ h)
    · rw [hrun] at h
      cases h
      exact ⟨s, hstep, ho⟩
    · rw [hrun] at h; cases h

theorem State.guard_of_hostStep {s t : State} {o : StepResult} (h : s.hostStep = .next (o, t)) (ho : o ≠ .ranOff) :
    s.guard = true := by
  rcases State.hostStep_cases h with ⟨-, hran, -⟩ | ⟨hg, -⟩
  · exact absurd hran ho
  · exact hg

/-- A step answers Halted after a HALT alone, and in its state (R141). -/
theorem State.hostStep_halted {s t : State} (h : s.hostStep = .next (.halted, t)) :
    s.guard = true ∧ s.nextInstr = .halt ∧ t = s.beginStep.halt := by
  have hg := State.guard_of_hostStep h (by decide)
  obtain ⟨hstep, hnames⟩ := stepCommandNamesTheOutcome s t .halted hg h
  have hi := nextInstr_of_step_halted hg hstep (by simpa using hnames)
  rw [step_of_halt hg hi] at hstep
  cases hstep
  exact ⟨hg, hi, rfl⟩

/-- A step answers Faulted after an unknown opcode alone, and in the state of that fault (R163). -/
theorem State.hostStep_faulted {s t : State} (h : s.hostStep = .next (.faulted, t)) :
    s.guard = true ∧ s.nextInstr.isUnknown = true ∧ t = s.beginStep.raiseUnknownOpcode := by
  have hg := State.guard_of_hostStep h (by decide)
  obtain ⟨hstep, hnames⟩ := stepCommandNamesTheOutcome s t .faulted hg h
  have hi := nextInstr_of_step_faulted hg hstep (by simpa using hnames)
  rw [step_of_unknown hg hi] at hstep
  cases hstep
  exact ⟨hg, hi, rfl⟩

/-- RanOff is the closed guard (R86). -/
theorem State.hostStep_ranOff {s t : State} (h : s.hostStep = .next (.ranOff, t)) : s.guard = false ∧ t = s := by
  rcases State.hostStep_cases h with ⟨hg, -, ht⟩ | ⟨hg, -, -⟩
  · exact ⟨hg, ht⟩
  · obtain ⟨-, hnames⟩ := stepCommandNamesTheOutcome s t .ranOff hg h
    simp at hnames

/-- An unknown opcode leaves `pc` and memory alone, so the machine stands at the word it faulted on. -/
theorem State.fetchedWord_raiseUnknownOpcode_beginStep (s : State) :
    s.beginStep.raiseUnknownOpcode.fetchedWord = s.fetchedWord := by
  simp [State.fetchedWord]

theorem State.guard_raiseUnknownOpcode_beginStep (s : State) : s.beginStep.raiseUnknownOpcode.guard = s.guard := by
  simp [State.guard]

/-- Settles O55: the state after the last step of the run, by the outcome that step gave. -/
theorem runEndsAsItsOutcomeSays : Obligations.RunEndsAsItsOutcomeSays := by
  intro fuel s t o h
  obtain ⟨u, hlast, ho⟩ := State.hostRun_last_step h
  cases o with
  | continued => exact ho rfl
  | halted =>
    obtain ⟨-, -, rfl⟩ := State.hostStep_halted hlast
    exact ⟨rfl, by simp⟩
  | faulted =>
    obtain ⟨hg, hi, rfl⟩ := State.hostStep_faulted hlast
    have hword := u.fetchedWord_raiseUnknownOpcode_beginStep
    refine ⟨rfl, u.guard_raiseUnknownOpcode_beginStep.trans hg, ?_, ?_, by simp⟩
    · simp [hword]
    · rwa [State.nextInstr, hword]
  | ranOff =>
    obtain ⟨hg, rfl⟩ := State.hostStep_ranOff hlast
    exact t.guard_eq_false_iff.mp hg

end Sys2Proof.Machine
end

section
/-! Proofs about the data transfer instructions: what LOAD, LOAD_IMM, STORE and MOVE answer and leave alone, and the
law of the family over a step (41_data_transfer.md). -/

namespace Sys2Proof.Machine

/-! ## What a register write and a memory write leave alone -/

theorem State.setX_frame (s : State) (r : RegIdx) (c : RegCell) :
    SameRegsBut r s (s.setX r c) ∧ SameMem s (s.setX r c) ∧ SameControl s (s.setX r c) ∧
      (s.setX r c).draws = s.draws :=
  ⟨fun i hi => s.x_setX_ne r i c hi, s.byteAt_setX r c, ⟨rfl, rfl, ⟨rfl, rfl⟩, rfl⟩, rfl⟩

theorem State.memWrite_frame {s : State} {a : Nat} (h : a < Config.memSize) (v : Byte) :
    SameRegs s (s.memWrite a v) ∧ SameControl s (s.memWrite a v) ∧ (s.memWrite a v).draws = s.draws := by
  rw [State.memWrite_in h]
  exact ⟨fun _ => rfl, ⟨rfl, rfl, ⟨rfl, rfl⟩, rfl⟩, rfl⟩

/-! ## The instructions (R100 to R103) -/

/-- Settles O20: XY addresses a cell, so the byte loaded is what that cell holds. -/
theorem loadCopiesMemoryToRegister : Obligations.LoadCopiesMemoryToRegister := by
  refine fun r xy => ⟨decode_encode (.load r xy), fun s => ⟨_, execLoad_eq r xy s, ?_, s.setX_frame r _⟩⟩
  rw [State.x_setX_same, State.byteAt_in (s := s) xy.isLt]

/-- Settles O21. -/
theorem loadImmWritesTheLiteralByte : Obligations.LoadImmWritesTheLiteralByte := fun r xy =>
  ⟨decode_encode (.loadImm r xy), fun s => ⟨s.setX r (.byte xy), rfl, s.x_setX_same r _, s.setX_frame r _⟩⟩

/-- Settles O22: XY addresses a cell, so the write is one of that cell alone. -/
theorem storeWritesTheRegisterByte : Obligations.StoreWritesTheRegisterByte := fun _ xy _ b hb =>
  ⟨_, exec_store_of_byte hb, State.byteAt_memWrite_same (xyAddress_lt xy) b,
    State.sameMemBut_memWrite (xyAddress_lt xy) b, State.memWrite_frame (xyAddress_lt xy) b⟩

/-- Settles O23. -/
theorem moveCopiesTheWholeCell : Obligations.MoveCopiesTheWholeCell := fun x y s =>
  ⟨s.setX y (s.x x), rfl, s.x_setX_same y _, s.setX_frame y _⟩

/-! ## The law of the family (R104) -/

/-- A step reports what its fetch and its instruction report (R168). -/
theorem step_reports {s t : State} (hg : s.guard = true) (h : step s = .next t) :
    t.reports = s.reports ++ s.fetchReports ++ execReports s.nextInstr s.fetchedWord := by
  obtain ⟨u, hu, rfl⟩ := step_effect hg h
  rw [State.endStep_reports, effect_reports hu, State.beginStep_reports, State.beginStep_ir]

/-- A step that executes a register write changes that register at most. -/
theorem State.step_frame_of_setX (s : State) (r : RegIdx) (c : RegCell) :
    SameRegsBut r s (s.beginStep.setX r c).endStep ∧ SameMem s (s.beginStep.setX r c).endStep := by
  obtain ⟨hregs, -⟩ := s.beginStep.setX_frame r c
  exact ⟨fun i hi => by simpa using hregs i hi, fun a => by simp⟩

/-- A step that executes a memory write changes the byte written at most. -/
theorem State.step_frame_of_memWrite (s : State) {a : Nat} (h : a < Config.memSize) (v : Byte) :
    SameRegs s (s.beginStep.memWrite a v).endStep ∧ SameMemBut a s (s.beginStep.memWrite a v).endStep := by
  obtain ⟨hregs, -⟩ := State.memWrite_frame (s := s.beginStep) h v
  have hmem := State.sameMemBut_memWrite (s := s.beginStep) h v
  exact ⟨fun i => by simpa using hregs i, fun b hb => by simpa using hmem b hb⟩

/-- The four opcodes of the family are none of those that jump, stop or fault. -/
theorem kind_of_dataTransfer_opcode {i : Instr} (h : i.opcode ∈ ([0x1, 0x2, 0x3, 0x4] : List Nibble)) :
    (∀ r xy, i ≠ .jumpeq r xy) ∧ i ≠ .halt ∧ i.isUnknown = false := by
  cases i with
  | load | loadImm | store | move => exact ⟨nofun, nofun, rfl⟩
  | _ => simp [Instr.opcode] at h

/-- Settles O42: the frame by the effect of the instruction, the rest by the laws of a step for an instruction that
neither jumps nor stops nor faults. -/
theorem dataTransferFamilyLaw : Obligations.DataTransferFamilyLaw := by
  intro s t hg h
  refine ⟨fun i hi => ?_, fun hop => ?_⟩
  · obtain ⟨u, hu, rfl⟩ := step_effect hg h
    rw [hi] at hu
    cases hu with
    | load | loadImm | move => exact s.step_frame_of_setX _ _
    | store r xy _ b => exact s.step_frame_of_memWrite (xyAddress_lt xy) b
    | add | addFloat | jumpTaken | jumpNotTaken | halt => trivial
    | unknown _ _ hk =>
      cases i with
      | load | loadImm | store | move => cases hk
      | _ => trivial
  · obtain ⟨hjump, hhalt, hknown⟩ := kind_of_dataTransfer_opcode hop
    refine ⟨step_ir hg h, ?_, ?_, ?_⟩
    · rw [step_pc hg h, pcAfter_of_not_jumpeq hjump hknown]
    · simp [phaseAfterEachInstruction s t hg h, hhalt, hknown]
    · simp [step_reports hg h, execReports, hhalt, hknown]

end Sys2Proof.Machine
end

section
/-! Proofs about the arithmetic instructions: what ADD and ADD_FLOAT answer and leave alone, and the arithmetic of the
alu (42_arithmetic.md). -/

namespace Sys2Proof.Machine

/-! ## ADD (R120, R121) -/

/-- Settles O24: two byte operands make ADD's effect, one register write of the alu's sum. -/
theorem addWritesTheMaskedSum : Obligations.AddWritesTheMaskedSum := fun r x y s a b hx hy =>
  ⟨_, aluAdd a b, effect_exec (.add r x y s a b hx hy), s.x_setX_same r _, toNat_aluAdd a b, s.setX_frame r _⟩

/-- Below 16 the sum is its own remainder, so the two branches of R120 are one. -/
theorem toNat_aluAdd_eq_mod (a b : Byte) : (aluAdd a b).toNat = (a.toNat + b.toNat) % 16 := by
  rw [toNat_aluAdd]
  split
  · rfl
  · exact (Nat.mod_eq_of_lt (by omega)).symm

theorem aluAdd_comm (a b : Byte) : aluAdd a b = aluAdd b a :=
  BitVec.eq_of_toNat_eq (by rw [toNat_aluAdd_eq_mod, toNat_aluAdd_eq_mod, Nat.add_comm])

/-- Settles O25: all four claims by the sum as one remainder of 16. -/
theorem addIsAdditionModuloSixteen : Obligations.AddIsAdditionModuloSixteen := by
  refine fun a b => ⟨toNat_aluAdd_eq_mod a b, ?_, aluAdd_comm a b, ?_⟩
  · rw [toNat_aluAdd_eq_mod, Nat.add_mod]
  · rw [toNat_aluAdd_eq_mod]
    exact Nat.le_of_lt_succ (Nat.mod_lt _ (by decide))

/-! ## ADD_FLOAT (R122, R124) -/

/-- Besides the cell it leaves, ADD_FLOAT advances only the model's own counter of free values. -/
theorem State.setOpaque_frame (s : State) (r : RegIdx) :
    SameRegsBut r s (s.setOpaque r) ∧ SameMem s (s.setOpaque r) ∧ SameControl s (s.setOpaque r) :=
  ⟨fun i hi => s.x_setOpaque_ne r i hi, s.byteAt_setOpaque r, ⟨rfl, rfl, ⟨rfl, rfl⟩, rfl⟩⟩

/-- Settles O26: operands of decimal digits lie in the domain of ADD_FLOAT, so its effect is the `Opaque` cell. -/
theorem addFloatLeavesAnOpaqueCell : Obligations.AddFloatLeavesAnOpaqueCell := by
  rintro r x y s ⟨a, hx, ha⟩ ⟨b, hy, hb⟩
  have hdomain : floatDomain a b = true := (floatDomain_iff a b).mpr ⟨ha, hb⟩
  exact ⟨_, _, effect_exec (.addFloat r x y s a b hx hy hdomain), s.x_setOpaque_same r, s.setOpaque_frame r⟩

theorem isDecimal_iff (b : Byte) : isDecimal b = true ↔ highDigit b ≤ 9 ∧ lowDigit b ≤ 9 := by
  simp [isDecimal]

/-- Two digits of at most 9 read as at most 99. -/
theorem decimalReading_le {b : Byte} (h : isDecimal b = true) : decimalReading b ≤ 99 := by
  obtain ⟨hhigh, hlow⟩ := (isDecimal_iff b).mp h
  unfold decimalReading
  omega

/-- Settles O27: the bound of one reading, twice. -/
theorem decimalSumAtMost198 : Obligations.DecimalSumAtMost198 := by
  intro a b h
  obtain ⟨ha, hb⟩ := (floatDomain_iff a b).mp h
  exact ⟨decimalReading_le ha, decimalReading_le hb, Nat.add_le_add (decimalReading_le ha) (decimalReading_le hb)⟩

end Sys2Proof.Machine
end

section
/-! Proofs about the control instructions: what JUMPEQ, HALT and the unknown opcodes answer and leave alone, and the
addresses at which JUMPEQ repeats itself or does nothing (43_control.md). -/

namespace Sys2Proof.Machine

/-! ## JUMPEQ (R140, R145) -/

/-- Settles O28: the taken jump writes `pc` alone, the other answers the state it was given. -/
theorem jumpeqLoadsXYWhenEqual : Obligations.JumpeqLoadsXYWhenEqual := by
  intro r xy s a b hr h0
  by_cases hab : a = b
  · subst hab
    exact ⟨_, effect_exec (.jumpTaken r xy s a hr h0), fun _ => toNat_xyTarget xy, fun hne => absurd rfl hne, rfl,
      ⟨rfl, rfl⟩, rfl, s.x_pcLoad _, s.byteAt_pcLoad _, rfl⟩
  · exact ⟨s, effect_exec (.jumpNotTaken r xy s a b hr h0 hab), fun heq => absurd heq hab, fun _ => rfl, rfl,
      ⟨rfl, rfl⟩, rfl, fun _ => rfl, fun _ => rfl, rfl⟩

/-- A step that executes JUMPEQ on two bytes answers, and leaves registers and memory alone. -/
theorem step_frame_of_jumpeq {s : State} {r : RegIdx} {xy : Byte} (hg : s.guard = true)
    (hi : s.nextInstr = .jumpeq r xy) (hr : s.holdsByte r) (h0 : s.holdsByte 0) :
    ∃ t, step s = .next t ∧ SameRegs s t ∧ SameMem s t := by
  obtain ⟨a, ha⟩ := hr
  obtain ⟨b, hb⟩ := h0
  obtain ⟨u, hexec, -, -, -, -, -, hregs, hmem, -⟩ :=
    jumpeqLoadsXYWhenEqual r xy s.beginStep a b (by simpa using ha) (by simpa using hb)
  refine ⟨u.endStep, step_of_effect hg (hi ▸ exec_effect hexec), fun i => ?_, fun k => ?_⟩
  · rw [State.x_endStep, hregs, State.x_beginStep]
  · rw [State.byteAt_endStep, hmem, State.byteAt_beginStep]

/-- Taken with XY = A - 2, JUMPEQ leads back to its own address A. -/
theorem pcAfter_jumpeq_self {s : State} {r : RegIdx} {xy : Byte} (heq : s.x r = s.x 0)
    (hpc : s.pc.toNat = xy.toNat + 2) : pcAfter (.jumpeq r xy) s = s.pc := by
  have htarget : xyTarget xy + 2 = s.pc := BitVec.eq_of_toNat_eq ((toNat_xyTarget_add_two xy).trans hpc.symm)
  rw [pcAfter, if_pos heq, htarget]

/-- With XY its own address, JUMPEQ leads to the next word on both branches. -/
theorem pcAfter_jumpeq_next {s : State} {xy : Byte} (r : RegIdx) (hpc : s.pc.toNat = xy.toNat) :
    pcAfter (.jumpeq r xy) s = s.pc + 2 := by
  have htarget : xyTarget xy = s.pc := BitVec.eq_of_toNat_eq ((toNat_xyTarget xy).trans hpc.symm)
  rw [pcAfter, htarget, ite_self]

/-- Settles O47: the frame of the step, and its `pc` by `pcAfter` at the two targets. -/
theorem jumpeqSelfLoopAndNoOperation : Obligations.JumpeqSelfLoopAndNoOperation := by
  intro s r xy hg hi hr h0
  obtain ⟨t, hstep, hregs, hmem⟩ := step_frame_of_jumpeq hg hi hr h0
  have hpc : t.pc = pcAfter (.jumpeq r xy) s := hi ▸ step_pc hg hstep
  exact ⟨t, hstep, hregs, hmem, fun heq hself => hpc.trans (pcAfter_jumpeq_self heq hself),
    fun hnext => hpc.trans (pcAfter_jumpeq_next r hnext)⟩

/-! ## HALT (R141) -/

/-- HALT writes the report stream, `pc` and the phase, and nothing else. -/
theorem State.halt_frame (s : State) :
    SameIrBound s s.halt ∧ SameRegs s s.halt ∧ SameMem s s.halt ∧ s.halt.draws = s.draws :=
  ⟨⟨rfl, rfl⟩, s.x_halt, s.byteAt_halt, rfl⟩

theorem State.hostStep_of_halt {s : State} (hg : s.guard = true) (hi : s.nextInstr = .halt) :
    s.hostStep = .next (.halted, s.beginStep.halt) := by
  rw [State.hostStep_of_guard hg, step_of_halt hg hi]
  rfl

/-- Settles O29: HALT as an instruction, as a step, and as the one cause of the outcome Halted. -/
theorem haltReportsAdvancesAndStops : Obligations.HaltReportsAdvancesAndStops := by
  refine ⟨fun _ => decode_opC, rfl, fun s => ?_, fun s hg hi => ?_, fun s t _ h => ?_⟩
  · exact ⟨s.halt, effect_exec (.halt s), s.halt_reports, s.halt_pc, s.halt_phase, s.halt_frame⟩
  · exact ⟨_, State.hostStep_of_halt hg hi, by simp, s.beginStep.halt_phase, step_of_guard⟩
  · obtain ⟨-, hi, -⟩ := State.hostStep_halted h
    exact hi

/-! ## The unknown opcodes (R142) -/

/-- The fault of an unknown opcode writes the report stream and the phase, and nothing else. -/
theorem State.raiseUnknownOpcode_frame (s : State) :
    s.raiseUnknownOpcode.pc = s.pc ∧ SameIrBound s s.raiseUnknownOpcode ∧ SameRegs s s.raiseUnknownOpcode ∧
      SameMem s s.raiseUnknownOpcode ∧ s.raiseUnknownOpcode.draws = s.draws :=
  ⟨rfl, ⟨rfl, rfl⟩, s.x_raiseUnknownOpcode, s.byteAt_raiseUnknownOpcode, rfl⟩

theorem isUnknown_of_mem_unknowns : ∀ i ∈
    ([.unknown0, .unknown7, .unknown8, .unknown9, .unknownA, .unknownD, .unknownE, .unknownF] : List Instr),
    i.isUnknown = true := by
  decide

/-- Settles O30: the eight rows have one meaning, the fault. -/
theorem everyUnknownOpcodeFaults : Obligations.EveryUnknownOpcodeFaults := fun i hi s =>
  ⟨s.raiseUnknownOpcode, exec_unknown (isUnknown_of_mem_unknowns i hi) s, s.raiseUnknownOpcode_reports,
    s.raiseUnknownOpcode_phase, s.raiseUnknownOpcode_frame⟩

end Sys2Proof.Machine
end

section
/-! Proofs about exceptions and reports: the order of a step's reports, the fault of an unknown opcode, and what
`status` shows (60_exceptions.md). -/

namespace Sys2Proof.Machine

/-! ## The order of the reports (R168, R178) -/

/-- Settles O18. -/
theorem reportsOfAStepInOrder : Obligations.ReportsOfAStepInOrder := fun _ _ => step_reports

/-! ## The fault of an unknown opcode (R163) -/

/-- The unknown opcodes are those the list of R163 leaves out. -/
theorem isUnknown_iff_opcode (i : Instr) :
    i.isUnknown = true ↔ i.opcode ∉ ([0x1, 0x2, 0x3, 0x4, 0x5, 0x6, 0xB, 0xC] : List Nibble) := by
  cases i with
  | load | loadImm | store | move | add | addFloat | jumpeq | halt => simp [Instr.isUnknown, Instr.opcode]
  | _ => decide

/-- A fetch reports bounds faults only. -/
theorem State.unknownOpcode_notMem_fetchReports (s : State) (w : IWord) : .unknownOpcode w ∉ s.fetchReports := by
  unfold State.fetchReports
  split <;> split <;> simp

/-- Execute reports an unknown opcode for such an instruction alone, and with the word it was given. -/
theorem unknownOpcode_mem_execReports {i : Instr} {v w : IWord} (h : .unknownOpcode w ∈ execReports i v) :
    i.isUnknown = true ∧ w = v := by
  unfold execReports at h
  split at h
  · simp at h
  · split at h
    next hk => exact ⟨hk, by simpa using h⟩
    next => simp at h

/-- An unknown opcode among the reports a step appends is the word it executed: its fetch reports none. -/
theorem unknownOpcode_mem_step_reports {s t : State} {es : List ReportEvent} {w : IWord} (hg : s.guard = true)
    (h : step s = .next t) (hes : t.reports = s.reports ++ es) (hw : .unknownOpcode w ∈ es) :
    s.nextInstr.isUnknown = true ∧ w = s.fetchedWord := by
  rw [step_reports hg h, List.append_assoc] at hes
  rw [← List.append_cancel_left hes, List.mem_append] at hw
  exact unknownOpcode_mem_execReports (hw.resolve_left (s.unknownOpcode_notMem_fetchReports w))

theorem State.hostStep_of_unknown {s : State} (hg : s.guard = true) (hi : s.nextInstr.isUnknown = true) :
    s.hostStep = .next (.faulted, s.beginStep.raiseUnknownOpcode) := by
  rw [State.hostStep_of_guard hg, step_of_unknown hg hi]
  rfl

/-- Settles O31: the words of the fault, the state it leaves, and back to it from the phase, the report and the
result of the command. -/
theorem unknownOpcodeFaultIsPrecise : Obligations.UnknownOpcodeFaultIsPrecise := by
  refine ⟨fun w => ?_, fun s hg hi => ?_, fun _ _ => nextInstr_of_step_faulted,
    fun _ _ _ _ => unknownOpcode_mem_step_reports, fun _ _ h => ?_⟩
  · rw [isUnknown_iff_opcode, opcode_decode]
  · exact ⟨_, step_of_unknown hg hi, State.hostStep_of_unknown hg hi, by simp, rfl, by simp, by simp,
      fun i => by simp, fun a => by simp⟩
  · obtain ⟨hg, hi, -⟩ := State.hostStep_faulted h
    exact ⟨hg, hi⟩

/-! ## What `status` shows (R179) -/

/-- After an advance by 2 from an address of memory, `status` shows that address. -/
theorem State.shownPc_of_advance {s t : State} (hs : s.pc.toNat < 256) (ht : t.pc = s.pc + 2) :
    t.hostStatus.shownPc = s.pc.toNat := by
  have hpc : t.pc.toNat = s.pc.toNat + 2 := by rw [ht, toNat_add_two_of_lt hs]
  show (t.pc.toNat : Int) - 2 = s.pc.toNat
  omega

/-- Settles O57: below an open guard a legal `pc` is an address of memory, and a HALT advances it by 2. -/
theorem statusShowsTheHaltAddress : Obligations.StatusShowsTheHaltAddress := by
  refine fun s => ⟨rfl, rfl, fun t hs hg hi h => State.shownPc_of_advance (hs.pc_lt_of_guard hg) ?_⟩
  rw [step_pc hg h, hi, pcAfter]

end Sys2Proof.Machine
end

section
/-! Proofs about reset, load and hazards: what a load writes, where execution starts, where a taken jump continues,
and the legality every host command keeps (70_reset_and_hazards.md). -/

namespace Sys2Proof.Machine

/-! ## The load of words (R193) -/

theorem State.hostLoad_of_le {s : State} {words : List IWord} (h : words.length ≤ Config.maxImageWords) :
    s.hostLoad words = .next (.success, (s.writeWords Config.loadBase words).setBound words.length) :=
  if_pos (decide_eq_true h)

/-- A load answers only for an image that fits. -/
theorem State.hostLoad_next {s t : State} {words : List IWord} {r : LoadResult}
    (h : s.hostLoad words = .next (r, t)) :
    words.length ≤ Config.maxImageWords ∧ r = .success ∧
      t = (s.writeWords Config.loadBase words).setBound words.length := by
  by_cases hlen : words.length ≤ Config.maxImageWords
  · rw [State.hostLoad_of_le hlen] at h
    cases h
    exact ⟨hlen, rfl, rfl⟩
  · rw [State.hostLoad, imageWellFormed, decide_eq_false hlen] at h
    cases h

/-- An image of at most 128 words ends inside the memory. -/
theorem loadBase_add_le {n : Nat} (h : n ≤ Config.maxImageWords) : Config.loadBase + 2 * n ≤ Config.memSize :=
  (Nat.zero_add _).trans_le (Nat.mul_le_mul_left 2 h)

/-- The bound of an image of at most 128 words is exact in 9 bits. -/
theorem State.toNat_psize_setBound (s : State) {n : Nat} (h : n ≤ Config.maxImageWords) :
    (s.setBound n).psize.toNat = 2 * n := by
  have hfits : 2 * n ≤ 256 := Nat.mul_le_mul_left 2 h
  rw [State.setBound_psize, BitVec.toNat_ofNat, Nat.mod_eq_of_lt (by omega)]

/-- Settles O51: the bytes of the image inside and outside it, and the rest of the state from `writeWords_rest`. -/
theorem loadPlacesTheImage : Obligations.LoadPlacesTheImage := by
  intro s words hlen
  have hfits := loadBase_add_le hlen
  refine ⟨_, State.hostLoad_of_le hlen, fun k hk => ?_, State.toNat_psize_setBound _ hlen, fun a ha => ?_, ?_⟩
  · simpa using State.byteAt_writeWords_in (s := s) hfits hk
  · rw [State.byteAt_setBound]
    exact State.byteAt_writeWords_out hfits (.inr (by simpa using ha))
  · obtain ⟨m, hm⟩ := State.writeWords_rest (s := s) hfits
    rw [hm]
    exact ⟨fun _ => rfl, rfl, rfl, rfl, rfl, rfl⟩

/-! ## The entry point (R191) -/

theorem State.guard_reset : State.reset.guard = false := by decide

theorem State.hostStep_reset : State.reset.hostStep = .next (.ranOff, State.reset) :=
  State.hostStep_of_not_guard State.guard_reset

/-- Settles O50: after a load `pc` is still 0, below the bound, and the two bytes there are the first word's. -/
theorem entryPointIsAddressZero : Obligations.EntryPointIsAddressZero := by
  refine ⟨rfl, rfl, State.hostStep_reset, State.hostRun_succ_of_ended State.hostStep_reset (by decide),
    fun w ws hlen => ?_⟩
  obtain ⟨t, hload, hbytes, hpsize, -, -, hpc, -⟩ := loadPlacesTheImage State.reset (w :: ws) hlen
  have hzero : t.pc = 0 := hpc
  have hword : t.fetchedWord = wordOfBytes (t.byteAt 0) (t.byteAt 1) := by rw [State.fetchedWord, hzero]; rfl
  refine ⟨t, hload, ?_, hzero, hword, ?_⟩
  · rw [State.guard_iff, hzero, hpsize]
    exact Nat.mul_pos Nat.two_pos (Nat.succ_pos _)
  · obtain ⟨hhigh, hlow⟩ : t.byteAt 0 = highByte w ∧ t.byteAt 1 = lowByte w := hbytes 0 (Nat.succ_pos _)
    rw [State.nextInstr, hword, hhigh, hlow, wordOfBytes_high_low]

/-! ## The load of a text (R194) -/

/-- Tokens that stand for words are hexadecimal. -/
theorem tokenHexadecimal_of_map_tokenWord {tokens : List (List Char)} {words : List IWord}
    (h : tokens.map tokenWord = words.map some) : ∀ g ∈ tokens, tokenHexadecimal g = true := by
  intro g hg
  have hmem : tokenWord g ∈ words.map some := h ▸ List.mem_map_of_mem hg
  obtain ⟨w, -, hw⟩ := List.mem_map.mp hmem
  exact tokenHexadecimal_of_word hw.symm

/-- Settles O54: `loadTokens_append` with no token after the good ones. -/
theorem textLoadAgreesWithWordLoad : Obligations.TextLoadAgreesWithWordLoad := by
  intro s tokens words hlen hfour hwords
  have hsame : tokens.length = words.length := by simpa using congrArg List.length hwords
  have hgood : ∀ g ∈ tokens, tokenWellFormed g = true ∧ tokenHexadecimal g = true := fun g hg =>
    ⟨hfour g hg, tokenHexadecimal_of_map_tokenWord hwords g hg⟩
  calc s.hostLoadText tokens
      = s.loadTokens 0 (tokens ++ []) := by rw [List.append_nil, State.hostLoadText]
    _ = (s.writeWords (2 * 0) words).loadTokens (0 + tokens.length) [] :=
        State.loadTokens_append [] (by rwa [Nat.zero_add]) hgood hwords
    _ = s.hostLoad words := by
        rw [State.hostLoad_of_le (hsame ▸ hlen), Nat.zero_add, hsame, State.loadTokens]

/-- What a text load makes of its first token when it answers: it writes the token's word and goes on, or reports the
token and ends. -/
theorem State.loadTokens_cons_next {s t : State} {k : Nat} {g : List Char} {gs : List (List Char)} {r : LoadResult}
    (h : s.loadTokens k (g :: gs) = .next (r, t)) :
    (∃ w, tokenWord g = some w ∧ k < Config.maxImageWords ∧
        (s.writeWord (Config.loadBase + 2 * k) w).loadTokens (k + 1) gs = .next (r, t)) ∨
      (r = .failure ∧ t = s.report (.loadFault k)) := by
  rw [State.loadTokens] at h
  split at h
  · split at h
    · split at h
      next w hw =>
        split at h
        next hk => exact .inl ⟨w, hw, hk, h⟩
        next => cases h
      next => cases h
    · cases h
  · cases h
    exact .inr ⟨rfl, rfl⟩

/-! ## Jump targets (R198) -/

/-- Settles O48: the target is the byte XY plus 2, exact in 9 bits. -/
theorem takenJumpTargetsAreTwoTo257 : Obligations.TakenJumpTargetsAreTwoTo257 := by
  intro s t r xy hg hi heq h
  have htarget : t.pc.toNat = xy.toNat + 2 := by
    rw [step_pc hg h, hi, pcAfter, if_pos heq, toNat_xyTarget_add_two]
  have hbyte := xy.isLt
  exact ⟨htarget, by omega, by omega⟩

/-! ## Legal states under the host commands (R208) -/

namespace State.Legal

variable {s t : State}

/-- A change of the memory alone that keeps its canonical form. -/
theorem of_mem (hs : s.Legal) (ht : ∃ m, t = { s with mem := m }) (hwf : Memory.wf t.mem) : t.Legal := by
  obtain ⟨m, rfl⟩ := ht
  exact { hs with mem_wf := hwf }

theorem writeWord (hs : s.Legal) {a : Nat} (h : a + 1 < Config.memSize) (w : IWord) : (s.writeWord a w).Legal :=
  hs.of_mem (State.writeWord_rest h w) (State.writeWord_wf hs.mem_wf a w)

theorem writeWords (hs : s.Legal) {a : Nat} {words : List IWord} (h : a + 2 * words.length ≤ Config.memSize) :
    (s.writeWords a words).Legal :=
  hs.of_mem (State.writeWords_rest h) (State.writeWords_wf hs.mem_wf)

theorem setBound (hs : s.Legal) {n : Nat} (h : n ≤ Config.maxImageWords) : (s.setBound n).Legal :=
  { hs with
    psize_le := by rw [s.toNat_psize_setBound h]; exact Nat.mul_le_mul_left 2 h
    psize_even := by rw [s.toNat_psize_setBound h]; exact Nat.mul_mod_right 2 n }

theorem report (hs : s.Legal) (e : ReportEvent) : (s.report e).Legal := { hs with }

/-- `ir` and the model's counter, in which the host's reset differs from the reset state, are free in a legal state. -/
theorem hostReset (s : State) : s.hostReset.Legal :=
  have hreset : State.reset.Legal := resetIsLegal
  { hreset with }

theorem hostLoad (hs : s.Legal) {words : List IWord} {r : LoadResult} (h : s.hostLoad words = .next (r, t)) :
    t.Legal := by
  obtain ⟨hlen, -, rfl⟩ := State.hostLoad_next h
  exact (hs.writeWords (loadBase_add_le hlen)).setBound hlen

/-- The text load, from token `k` on: no token past the 128th is written, so each stands inside the memory. -/
theorem loadTokens {tokens : List (List Char)} {r : LoadResult} :
    ∀ {s : State} {k : Nat}, s.Legal → k ≤ Config.maxImageWords → s.loadTokens k tokens = .next (r, t) → t.Legal := by
  induction tokens with
  | nil =>
    intro s k hs hk h
    cases h
    exact hs.setBound hk
  | cons g gs ih =>
    intro s k hs hk h
    rcases State.loadTokens_cons_next h with ⟨w, -, hlt, hrest⟩ | ⟨-, rfl⟩
    · have hfits := loadBase_add_le (n := k + 1) hlt
      exact ih (hs.writeWord (by omega) w) hlt hrest
    · exact hs.report _

theorem hostStep (hs : s.Legal) {o : StepResult} (h : s.hostStep = .next (o, t)) : t.Legal := by
  rcases State.hostStep_cases h with ⟨-, -, rfl⟩ | ⟨-, hstep, -⟩
  · exact hs
  · exact stepKeepsLegalStates s t hs hstep

theorem hostRun {fuel : Nat} {o : Option StepResult} :
    ∀ {s : State}, s.Legal → s.hostRun fuel = .next (o, t) → t.Legal := by
  induction fuel with
  | zero =>
    intro s hs h
    cases h
    exact hs
  | succ n ih =>
    intro s hs h
    rcases s.hostRun_succ_cases with ⟨u, hstep, hrun⟩ | ⟨o', u, hstep, -, hrun⟩ | ⟨q, -, hrun⟩
    · exact ih (hs.hostStep hstep) (hrun n ▸ h)
    · rw [hrun] at h
      cases h
      exact hs.hostStep hstep
    · rw [hrun] at h; cases h

end State.Legal

/-- A command that replies with an operation's result ends in that operation's state. -/
theorem next_of_reply {α : Type} {f : α → Reply} {o : Host.Outcome (α × State) Fault Refusal} {a : Reply} {t : State}
    (h : mapNext (fun p => (f p.1, p.2)) o = .next (a, t)) : ∃ r, o = .next (r, t) := by
  obtain ⟨⟨r, u⟩, ho, he⟩ := mapNext_next h
  cases he
  exact ⟨r, ho⟩

/-- Settles O38: the invariant under each command. -/
theorem hostCommandsKeepLegalStates : Obligations.HostCommandsKeepLegalStates := by
  intro c s t a hs h
  cases c with
  | reset =>
    cases h
    exact .hostReset s
  | load words =>
    obtain ⟨_, hload⟩ := next_of_reply h
    exact hs.hostLoad hload
  | loadText tokens =>
    obtain ⟨_, hload⟩ := next_of_reply h
    exact hs.loadTokens (Nat.zero_le _) hload
  | step =>
    obtain ⟨_, hstep⟩ := next_of_reply h
    exact hs.hostStep hstep
  | run fuel =>
    obtain ⟨_, hrun⟩ := next_of_reply h
    exact hs.hostRun hrun
  | status =>
    cases h
    exact hs

end Sys2Proof.Machine
end

section
/-! Proofs about defined operands: what is refused for an `Opaque` cell or a hex letter, and that nothing else is
(92_eei_decisions.md D5 and D6). -/

namespace Sys2Proof.Machine

/-! ## Refused operands (U3, U4) -/

/-- Of two registers read as bytes, the second is the one refused when the first holds a byte. -/
theorem State.withByte_withByte_opaque {s : State} {i j : RegIdx} {bits : Byte} (hi : s.holdsByte i)
    (hj : s.x j = .opaqueText bits) (k : Byte → Byte → Result) :
    (s.withByte i fun a => s.withByte j (k a)) = .refused (.opaqueOperand j) := by
  obtain ⟨a, ha⟩ := hi
  rw [State.withByte_byte ha, State.withByte_opaque hj]

/-- Settles O32: at each place an instruction reads a byte, the `Opaque` register is the first operand or the second
after a byte. -/
theorem opaqueOperandsAreRefused : Obligations.OpaqueOperandsAreRefused := by
  intro s p bits hp
  refine ⟨fun _ => ?store, fun _ _ => ?addFirst, fun _ _ hx => ?addSecond, fun _ _ => ?floatFirst,
    fun _ _ hx => ?floatSecond, fun _ => ?jumpFirst, fun h0 _ _ hr => ?jumpSecond⟩
  case store | addFirst | floatFirst | jumpFirst => exact State.withByte_opaque hp _
  case addSecond | floatSecond => exact State.withByte_withByte_opaque hx hp _
  case jumpSecond =>
    subst h0
    exact State.withByte_withByte_opaque hr hp _

theorem State.holdsDecimal_iff {s : State} {i : RegIdx} {b : Byte} (h : s.x i = .byte b) :
    s.holdsDecimal i ↔ isDecimal b = true := by
  simp [State.holdsDecimal, h]

/-- Settles O33: two bytes that are not both decimal lie outside the domain of ADD_FLOAT. -/
theorem nonDecimalOperandsAreRefused : Obligations.NonDecimalOperandsAreRefused := by
  rintro r x y s ⟨a, ha⟩ ⟨b, hb⟩ hnot
  rw [State.holdsDecimal_iff ha, State.holdsDecimal_iff hb] at hnot
  have hdomain : ¬ floatDomain a b = true := by
    rw [floatDomain_iff]
    exact not_and_or.mpr hnot
  exact (execAddFloat_eq ha hb).trans (if_neg hdomain)

/-! ## Exactly the defined operands are answered -/

theorem operandsDefined_of_unknown {i : Instr} (h : i.isUnknown = true) (s : State) : OperandsDefined i s := by
  cases i with
  | load | loadImm | store | move | add | addFloat | jumpeq | halt => cases h
  | _ => trivial

/-- An effect has read its operands as the spec defines them. -/
theorem Effect.operandsDefined {i : Instr} {s t : State} (h : Effect i s t) : OperandsDefined i s := by
  cases h with
  | load | loadImm | move | halt => trivial
  | store _ _ _ b hb => exact ⟨b, hb⟩
  | add _ _ _ _ a b hx hy => exact ⟨⟨a, hx⟩, ⟨b, hy⟩⟩
  | addFloat _ _ _ _ a b hx hy hd =>
    obtain ⟨ha, hb⟩ := (floatDomain_iff a b).mp hd
    exact ⟨⟨a, hx, ha⟩, ⟨b, hy, hb⟩⟩
  | jumpTaken _ _ _ b hr h0 => exact ⟨⟨b, hr⟩, ⟨b, h0⟩⟩
  | jumpNotTaken _ _ _ a b hr h0 => exact ⟨⟨a, hr⟩, ⟨b, h0⟩⟩
  | unknown _ _ hk => exact operandsDefined_of_unknown hk s

/-- On defined operands every instruction answers: each by the statement of what it does there. -/
theorem exec_next_of_operandsDefined {i : Instr} {s : State} (h : OperandsDefined i s) :
    ∃ t, exec i s = .next t := by
  cases i with
  | load r xy => exact ⟨_, effect_exec (.load r xy s)⟩
  | loadImm r xy => exact ⟨_, effect_exec (.loadImm r xy s)⟩
  | store r xy =>
    obtain ⟨b, hb⟩ := h
    exact ⟨_, exec_store_of_byte hb⟩
  | move x y => exact ⟨_, effect_exec (.move x y s)⟩
  | add r x y =>
    obtain ⟨⟨a, ha⟩, b, hb⟩ := h
    exact ⟨_, effect_exec (.add r x y s a b ha hb)⟩
  | addFloat r x y =>
    obtain ⟨hx, hy⟩ := h
    obtain ⟨t, -, hexec, -⟩ := addFloatLeavesAnOpaqueCell r x y s hx hy
    exact ⟨t, hexec⟩
  | jumpeq r xy =>
    obtain ⟨⟨a, ha⟩, b, hb⟩ := h
    obtain ⟨t, hexec, -⟩ := jumpeqLoadsXYWhenEqual r xy s a b ha hb
    exact ⟨t, hexec⟩
  | halt => exact ⟨_, effect_exec (.halt s)⟩
  | unknown0 | unknown7 | unknown8 | unknown9 | unknownA | unknownD | unknownE | unknownF =>
    exact ⟨_, exec_unknown rfl s⟩

/-- Settles O34: there by the effect a next state is, back by the effect that defined operands make. -/
theorem execAnswersExactlyOnDefinedOperands : Obligations.ExecAnswersExactlyOnDefinedOperands := fun _ _ =>
  ⟨fun ⟨_, h⟩ => (exec_effect h).operandsDefined, exec_next_of_operandsDefined⟩

/-- Whether operands are defined is read off the registers, which fetch leaves alone. -/
theorem operandsDefined_beginStep (i : Instr) (s : State) : OperandsDefined i s.beginStep ↔ OperandsDefined i s := by
  simp [OperandsDefined, State.holdsByte, State.holdsDecimal]

theorem mapNext_eq_next_iff {α β : Type} (f : α → β) (o : Host.Outcome α Fault Refusal) :
    (∃ b, mapNext f o = .next b) ↔ ∃ a, o = .next a := by
  refine ⟨fun ⟨_, hb⟩ => ?_, fun ⟨a, ha⟩ => ⟨f a, by rw [ha]; rfl⟩⟩
  obtain ⟨a, ha, -⟩ := mapNext_next hb
  exact ⟨a, ha⟩

/-- Settles O35: behind an open guard the step answers where `exec` does, in the state after the fetch. -/
theorem stepIsSafeExactlyOnDefinedOperands : Obligations.StepIsSafeExactlyOnDefinedOperands := by
  intro s
  cases hg : s.guard with
  | false => exact ⟨fun _ => nofun, fun _ => ⟨s, step_of_not_guard hg⟩⟩
  | true =>
    calc SafeStep s
      _ ↔ ∃ t, exec s.nextInstr s.beginStep = .next t := by
        rw [SafeStep, step_of_guard hg]
        exact mapNext_eq_next_iff _ _
      _ ↔ OperandsDefined s.nextInstr s.beginStep := execAnswersExactlyOnDefinedOperands _ _
      _ ↔ OperandsDefined s.nextInstr s := operandsDefined_beginStep _ s
      _ ↔ (true = true → OperandsDefined s.nextInstr s) := (imp_iff_right rfl).symm

/-! ## Sample words and the phase -/

/-- Settles O5: each word's opcode chooses its row of the map. -/
theorem sampleWordsDecode : Obligations.SampleWordsDecode :=
  ⟨decode_op1 rfl, decode_op2 rfl, decode_op3 rfl, decode_op4 rfl, decode_op5 rfl, decode_op6 rfl, decode_opB rfl,
    decode_opC rfl, decode_op7 rfl⟩

/-- A step begins by overwriting the phase (R80). -/
theorem State.beginStep_of_phase (s : State) (p : Phase) : { s with phase := p }.beginStep = s.beginStep := rfl

/-- Settles O17: the guard reads `pc` and `psize`, and an executed step starts in the same state for every phase. -/
theorem phaseIsNotConsulted : Obligations.PhaseIsNotConsulted := by
  refine fun s p => ⟨rfl, fun hg => ?_⟩
  have hguard : { s with phase := p }.guard = true := hg
  rw [step_of_guard hg, step_of_guard hguard, State.beginStep_of_phase]
  rfl

end Sys2Proof.Machine
end

section
/-! Proofs about the loads that do not succeed: an oversize image, a malformed token, a token that is not hexadecimal,
and a 129th good token (70_reset_and_hazards.md section 2, D3, D17). -/

namespace Sys2Proof.Machine

/-- Settles O52. -/
theorem oversizeLoadIsRefused : Obligations.OversizeLoadIsRefused := by
  intro s words hlen
  have hbad : imageWellFormed words = false := decide_eq_false (Nat.not_le.mpr hlen)
  simp [State.hostLoad, hbad]

/-! ## The token after the good ones (R194, U7) -/

/-- Good tokens stand for words. -/
theorem exists_words_of_good {good : List (List Char)}
    (h : ∀ g ∈ good, tokenWellFormed g = true ∧ tokenHexadecimal g = true) :
    ∃ words : List IWord, good.map tokenWord = words.map some := by
  induction good with
  | nil => exact ⟨[], rfl⟩
  | cons g gs ih =>
    obtain ⟨⟨hfour, hhex⟩, hgs⟩ := List.forall_mem_cons.mp h
    obtain ⟨w, hw⟩ := tokenWord_of_hexadecimal hfour hhex
    obtain ⟨ws, hws⟩ := ih hgs
    exact ⟨w :: ws, by simp [hw, hws]⟩

/-- A text load writes its first good tokens as the words they stand for, and goes on with the rest. -/
theorem State.hostLoadText_append {s : State} {good : List (List Char)} (rest : List (List Char))
    (hgood : ∀ g ∈ good, tokenWellFormed g = true ∧ tokenHexadecimal g = true)
    (hlen : good.length ≤ Config.maxImageWords) :
    ∃ words : List IWord, good.map tokenWord = words.map some ∧
      s.hostLoadText (good ++ rest) = (s.writeWords Config.loadBase words).loadTokens good.length rest := by
  obtain ⟨words, hwords⟩ := exists_words_of_good hgood
  refine ⟨words, hwords, ?_⟩
  rw [State.hostLoadText, State.loadTokens_append rest (by rwa [Nat.zero_add]) hgood hwords, Nat.zero_add]

section firstToken

variable (s : State) {k : Nat} {g : List Char} (rest : List (List Char))

theorem State.loadTokens_malformed (h : g.length ≠ 4) :
    s.loadTokens k (g :: rest) = .next (.failure, s.report (.loadFault k)) := by
  rw [State.loadTokens, tokenWellFormed, decide_eq_false h]
  rfl

theorem State.loadTokens_nonHex (hfour : g.length = 4) (hhex : tokenHexadecimal g = false) :
    s.loadTokens k (g :: rest) = .refused .nonHexToken := by
  rw [State.loadTokens, tokenWellFormed, decide_eq_true hfour, hhex]
  rfl

theorem State.loadTokens_oversize (hfour : g.length = 4) (hhex : tokenHexadecimal g = true)
    (hk : Config.maxImageWords ≤ k) : s.loadTokens k (g :: rest) = .refused .oversizeLoad := by
  have hwell : tokenWellFormed g = true := decide_eq_true hfour
  obtain ⟨w, hw⟩ := tokenWord_of_hexadecimal hwell hhex
  rw [State.loadTokens, if_pos hwell, if_pos hhex, hw]
  exact if_neg (Nat.not_lt.mpr hk)

end firstToken

/-- Settles O53: the good tokens are written as an image, and the malformed one adds its report alone. -/
theorem malformedTokenAbortsTheLoad : Obligations.MalformedTokenAbortsTheLoad := by
  intro s good bad rest hgood hlen hbad
  obtain ⟨words, hwords, hload⟩ := State.hostLoadText_append (s := s) (bad :: rest) hgood hlen
  have hsame : good.length = words.length := by simpa using congrArg List.length hwords
  have hfits : Config.loadBase + 2 * words.length ≤ Config.memSize := loadBase_add_le (hsame ▸ hlen)
  refine ⟨_, hload.trans (State.loadTokens_malformed _ rest hbad), fun k hk => ?_, fun a ha => ?_, ?_⟩
  · have hk' : k < words.length := hsame ▸ hk
    have hword : tokenWord good[k] = some words[k] := by
      simpa [hk, hk'] using congrArg (·[k]?) hwords
    obtain ⟨hhigh, hlow⟩ := State.byteAt_writeWords_in (s := s) hfits hk'
    rw [Nat.zero_add] at hhigh hlow
    rw [hword, State.byteAt_report, State.byteAt_report, hhigh, hlow, wordOfBytes_high_low]
  · rw [State.byteAt_report]
    exact State.byteAt_writeWords_out hfits (.inr (by simpa [← hsame] using ha))
  · obtain ⟨m, hm⟩ := State.writeWords_rest (s := s) hfits
    rw [hm]
    exact ⟨rfl, rfl, fun _ => rfl, rfl, rfl, rfl⟩

/-- Settles O58: both refusals stand at the first token after the good ones. -/
theorem textLoadRefusals : Obligations.TextLoadRefusals := by
  refine fun s good g rest hgood hfour => ⟨fun hlen hhex => ?_, fun hlen hhex => ?_⟩
  · obtain ⟨_, -, hload⟩ := State.hostLoadText_append (s := s) (g :: rest) hgood hlen
    rw [hload, State.loadTokens_nonHex _ rest hfour hhex]
  · obtain ⟨_, -, hload⟩ := State.hostLoadText_append (s := s) (g :: rest) hgood hlen.le
    rw [hload, State.loadTokens_oversize _ rest hfour hhex hlen.ge]

end Sys2Proof.Machine
end
